-- ==== Sys2Proof/Word.lean ====
section
/-! DEFINITION. The widths of the values the block handles (00_scope.md R10, R20, R61). Every value is unsigned. -/

namespace Sys2Proof

/-- A command word `W[31:0]` (R61). -/
abbrev Word := BitVec 32

/-- A byte: `0x01` is bit 0, `0x80` is bit 7 (R10). -/
abbrev Byte := BitVec 8

/-- A lane: bit `i` has weight `2^i` (R10). -/
abbrev Lane := BitVec 64

/-- The State of the sponge: 25 lanes, `A[i]` with `i = x + 5y` (R11, R20). -/
abbrev Lanes := Vector Lane 25

end Sys2Proof
end

