-- ==== Sys2Proof/Syntax.lean ====
section
/-! DEFINITION. The command set: the four rows of spec/opcode_table.json (30_encoding.md R62; 43_sponge_commands.md
R120, R133: there is no other). -/

namespace Sys2Proof

/-- A decoded command. Operands that are numbers are numbers (R67: `IMM16` and `N` are unsigned values with no scaling
or extension); which of them have an encoding is WellFormed.lean's business. -/
inductive Instr where
  /-- `INIT imm16`, format I, `construct(output_bits)` (R63, R121): the requested digest size in bits. -/
  | init (imm16 : Nat)
  /-- `INIT256`, format Z, the zero-argument constructor (R64, R122). -/
  | init256
  /-- `ABSORB n, b0, b1, b2`, format B, `absorb(bytes)` (R65, R123). All three byte fields are kept: those at an index
  `≥ n` are ignored by the command, and any value is legal there. -/
  | absorb (n : Nat) (b0 b1 b2 : Byte)
  /-- `FINAL`, format Z, `finalize()` (R66, R125). -/
  | final
  deriving DecidableEq, Repr

end Sys2Proof
end

