-- ==== Sys2Proof/WellFormed.lean ====
section
/-! DEFINITION. Which commands have an encoding (30_encoding.md R63, R65, R67). -/

namespace Sys2Proof

/-- The operand checks: `IMM16` holds a 16-bit size ("Requested sizes that do not fit in 16 bits … have no encoding",
R67), `N` is 0 to 3 (R67). The byte fields take any value (R65); whether a size is SUPPORTED is decided at execution,
not here (R63). -/
def Instr.wf : Instr → Bool
  | .init imm16 => decide (imm16 < 65536)
  | .init256 => true
  | .absorb n _ _ _ => decide (n ≤ 3)
  | .final => true

end Sys2Proof
end

