-- ==== Sys2Proof/Decode.lean ====
section
/-! DEFINITION. The command table, the decoder and the encoder (30_encoding.md R61 to R69). -/

namespace Sys2Proof

/-- Why a word is no command (R68); every reason has the same effect, `IllegalCommand`. -/
inductive IllegalWord where
  /-- `OP ∈ {0, 5, 6, …, 15}`. -/
  | unassignedOp
  /-- `OP = 1` and `W[27:16] ≠ 0`. -/
  | zero12
  /-- `OP = 2` or `OP = 4`, and `W[27:0] ≠ 0`. -/
  | zero28
  /-- `OP = 3` and `W[27:26] ≠ 0`. -/
  | zero2
  deriving DecidableEq, Repr

/-- A row of the command table (R62): a word is the row's command exactly when `(W & mask) = match`. -/
structure OpRow where
  mnemonic : String
  mask : Word
  pattern : Word
  deriving DecidableEq, Repr

/-- The table of R62, in its order. -/
def opTable : List OpRow :=
  [⟨"INIT", 0xFFFF0000, 0x10000000⟩, ⟨"INIT256", 0xFFFFFFFF, 0x20000000⟩,
    ⟨"ABSORB", 0xFC000000, 0x30000000⟩, ⟨"FINAL", 0xFFFFFFFF, 0x40000000⟩]

/-- The row matches the word (R62). -/
def OpRow.accepts (r : OpRow) (w : Word) : Bool := w &&& r.mask == r.pattern

/-- The row of the table a command belongs to. -/
def Instr.row : Instr → OpRow
  | .init _ => ⟨"INIT", 0xFFFF0000, 0x10000000⟩
  | .init256 => ⟨"INIT256", 0xFFFFFFFF, 0x20000000⟩
  | .absorb .. => ⟨"ABSORB", 0xFC000000, 0x30000000⟩
  | .final => ⟨"FINAL", 0xFFFFFFFF, 0x40000000⟩

/-- `W[hi:lo]` as a bit vector of `len = hi - lo + 1` bits. -/
def field (w : Word) (lo len : Nat) : BitVec len := w.extractLsb' lo len

/-- Decoding, in the order of R69's pseudocode; total, and a function of the word alone. -/
def decode (w : Word) : Except IllegalWord Instr :=
  let op := field w 28 4
  if op = 1 then
    if field w 16 12 = 0 then .ok (.init (field w 0 16).toNat) else .error .zero12
  else if op = 2 then
    if field w 0 28 = 0 then .ok .init256 else .error .zero28
  else if op = 3 then
    if field w 26 2 = 0 then .ok (.absorb (field w 24 2).toNat (field w 0 8) (field w 8 8) (field w 16 8))
    else .error .zero2
  else if op = 4 then
    if field w 0 28 = 0 then .ok .final else .error .zero28
  else .error .unassignedOp

/-- The word of a well-formed command, from the formats of R61 and the encodings of R63 to R66: the fields at their
bits, `0x30000000 | (n << 24) | b0 | (b1 << 8) | (b2 << 16)` for `ABSORB` (R71). -/
def encode : Instr → Word
  | .init imm16 => (0x10000000 : Word) ||| (BitVec.ofNat 16 imm16).setWidth 32
  | .init256 => 0x20000000
  | .absorb n b0 b1 b2 =>
    (0x30000000 : Word) ||| ((BitVec.ofNat 2 n).setWidth 32 <<< 24) ||| b0.setWidth 32 ||| (b1.setWidth 32 <<< 8) ||| (b2.setWidth 32 <<< 16)
  | .final => 0x40000000

/-- What the decoder reads from a word numbered as spec/opcode_table.json numbers it (bit 0 the least significant; the
bits above `nbits` are 0). A command is one 32-bit word (R61), so a longer number is none. -/
def decodeTableWord (nbits w : Nat) : Option Instr :=
  if w % 2 ^ nbits < 2 ^ 32 then (decode (BitVec.ofNat 32 (w % 2 ^ nbits))).toOption else none

end Sys2Proof
end

