-- ==== Sys2Proof/Config.lean ====
section
/-! DEFINITION. The parameters the spec fixes (00_scope.md R7, R8). The spec leaves no VALUE open (R19: "Every rule of
this spec is a function"), so there is no free value here; the open parameters T_ROUND, T_CMD and F_CLK are durations,
which no rule reads (R8, R167; log entry 11). -/

namespace Sys2Proof.Config

/-- `NR`: the rounds of one permutation (R7, R88). -/
abbrev rounds : Nat := 24

/-- The storage of the buffer in bytes, the largest rate (R7, R23). -/
abbrev bufBytes : Nat := 144

/-- The most message bytes one `ABSORB` carries (R8, R65). -/
abbrev maxPayload : Nat := 3

end Sys2Proof.Config
end

