-- ==== Sys2Proof/Machine/Lanes.lean ====
section
/-! DEFINITION. Lanes and bytes: indices, rotation, byte order, the flat vector (00_scope.md R10 to R13; 20_memory.md
R43, R45). -/

namespace Sys2Proof.Machine

/-- The column `x = i mod 5` of lane `i` (R11). -/
def xOf (i : Fin 25) : Fin 5 := ⟨i.val % 5, Nat.mod_lt _ (by decide)⟩

/-- The row `y = i div 5` of lane `i` (R11). -/
def yOf (i : Fin 25) : Fin 5 := ⟨i.val / 5, by omega⟩

/-- The index `i = x + 5y` of the lane at `(x,y)` (R11). Coordinates are `Fin 5`, whose arithmetic is modulo 5 (R13). -/
def laneIx (x y : Fin 5) : Fin 25 := ⟨x.val + 5 * y.val, by omega⟩

/-- The 25 lanes given by their indices. -/
def lanesOf (f : Fin 25 → Lane) : Lanes := Vector.ofFn f

/-- `A[x,y]` (R11, R20). -/
def laneAt (A : Lanes) (x y : Fin 5) : Lane := A[laneIx x y]

/-- All 25 lanes 0 (R32). -/
def zeroLanes : Lanes := Vector.replicate 25 0

/-- `ROTL(a, n)`, rotation towards higher bit numbers; `ROTL(a, 0) = a` (R13). -/
def rotl (a : Lane) (n : Nat) : Lane := a.rotateLeft n

/-- The `w`-bit value of a byte sequence, first byte least significant: `Σ b_k · 2^(8k)` (R12, R43). -/
def packLE (w : Nat) : List Byte → BitVec w
  | [] => 0
  | b :: bs => b.setWidth w ||| (packLE w bs <<< 8)

/-- `LE64(b0,…,b7)` (R12). -/
def le64 (bs : List Byte) : Lane := packLE 64 bs

/-- Byte `k` of a lane, `v[8k+7:8k]` (R10). -/
def laneByte (v : Lane) (k : Nat) : Byte := v.extractLsb' (8 * k) 8

/-- `BYTES(v)`: the 8 bytes of a lane, least significant first (R12). -/
def bytesOf (v : Lane) : List Byte := (List.range 8).map (laneByte v)

/-- `STBYTES(A)`: the 200 bytes of the State in lane order (R12); this is the storage space `ST` (R40). -/
def stBytes (A : Lanes) : List Byte := A.toList.flatMap bytesOf

/-- `MemRead(ST, k, n)` (R14): bytes `k … k+n−1` of the State. -/
def memReadST (A : Lanes) (k n : Nat) : List Byte := ((stBytes A).drop k).take n

/-- The State as one 1600-bit vector `V`, `V[64i+63:64i] = A[i]` (R12). -/
def flatten (A : Lanes) : BitVec 1600 := packLE 1600 (stBytes A)

/-- The lanes of a 1600-bit vector (R12). -/
def unflatten (v : BitVec 1600) : Lanes := lanesOf fun i => v.extractLsb' (64 * i.val) 64

/-- XOR of two States, lane by lane (R13, R90). -/
def xorLanes (A B : Lanes) : Lanes := lanesOf fun i => A[i] ^^^ B[i]

end Sys2Proof.Machine
end

