-- ==== Sys2Proof/Machine/Roms.lean ====
section
/-! DEFINITION. The two ROMs, constants of the step function (41_rom_tables.md R100 to R106). They are indexed with
`Fin 24` and `Fin 25`, so that an address outside a table cannot be written down (R106; log entry 12). The values are
the spec's own from general knowledge (R102, R104, decisions D11 and D12). -/

namespace Sys2Proof.Machine

/-- `RCROM` by the column "bits set" of R102's table: which bits of the word `RC[ir]` are 1, for `ir = 0 … 23`. "Only bit
positions 0, 1, 3, 7, 15, 31 and 63 are ever set." -/
def rcBits : Vector (List Nat) 24 :=
  #v[[0], [1, 7, 15], [1, 3, 7, 15, 63], [15, 31, 63],
     [0, 1, 3, 7, 15], [0, 31], [0, 7, 15, 31, 63], [0, 3, 15, 63],
     [1, 3, 7], [3, 7], [0, 3, 15, 31], [1, 3, 31],
     [0, 1, 3, 7, 15, 31], [0, 1, 3, 7, 63], [0, 3, 7, 15, 63], [0, 1, 15, 63],
     [1, 15, 63], [7, 63], [1, 3, 15], [1, 3, 31, 63],
     [0, 7, 15, 31, 63], [7, 15, 63], [0, 31], [3, 15, 31, 63]]

/-- The lane in which exactly the listed bits are 1 (R10). -/
def laneOfBits (ks : List Nat) : Lane := ks.foldr (fun k v => BitVec.twoPow 64 k ||| v) 0

/-- `OFFROM`: the 25 packed words `off_data` of the full ROM listing (R103, R105), addressed by the source lane. -/
def offRom : Vector (BitVec 11) 25 :=
  #v[0x000, 0x02A, 0x7D4, 0x385, 0x36F, 0x490, 0x581, 0x0CB, 0x6F5, 0x286, 0x067, 0x151, 0x562,
     0x32C, 0x4F6, 0x537, 0x5A8, 0x1F2, 0x2A3, 0x10D, 0x24E, 0x058, 0x7A9, 0x713, 0x1C4]

/-- The ROM read `rc_data = RC[ir]`: "bit `j` of the word is bit `j` of the lane value XORed into `A[0,0]`" (R101). -/
def rc (ir : Fin 24) : Lane := laneOfBits rcBits[ir]

/-- The ROM read `RHO[i] = off_data[10:5]` (R103). -/
def rhoOffset (i : Fin 25) : Nat := ((offRom[i]).extractLsb' 5 6).toNat

/-- The ROM read `PI[i] = off_data[4:0]`, the DESTINATION of lane `i` (R103). Every entry is below 25 (R105), so the
reduction of `Fin.ofNat` never acts. -/
def piDest (i : Fin 25) : Fin 25 := Fin.ofNat 25 ((offRom[i]).extractLsb' 0 5).toNat

end Sys2Proof.Machine
end

