-- ==== Sys2Proof/Machine/Engine.lean ====
section
/-! DEFINITION. The permutation engine: the five step mappings, the round, Keccak-f[1600], the engine's port
(40_permutation_engine.md R80 to R91). Pure functions of the 25 lanes and the ROMs (R80), total (R81). Each builds its
whole result from its input, so that no right-hand side sees a lane the same step has already written. -/

namespace Sys2Proof.Machine

/-- The column parities `C[x]` of `THETA` (R82). -/
def columnParity (A : Lanes) : Vector Lane 5 :=
  Vector.ofFn fun x => laneAt A x 0 ^^^ laneAt A x 1 ^^^ laneAt A x 2 ^^^ laneAt A x 3 ^^^ laneAt A x 4

/-- The θ-effect words `D[x] = C[x−1] ⊕ ROTL(C[x+1], 1)` (R82); `x−1` is `x+4` modulo 5. -/
def thetaEffect (C : Vector Lane 5) : Vector Lane 5 :=
  Vector.ofFn fun x => C[x + 4] ^^^ rotl C[x + 1] 1

/-- `THETA` (R82). -/
def theta (A : Lanes) : Lanes := lanesOf fun i => A[i] ^^^ (thetaEffect (columnParity A))[xOf i]

/-- `RHO` (R83): lane `i` rotated left by `RHO[i]`. -/
def rho (A : Lanes) : Lanes := lanesOf fun i => rotl A[i] (rhoOffset i)

/-- `PI` (R84), with the ROM: `for i in 0..24: A'[PI[i]] = A[i]`. `PI` is a bijection, so every lane of the result is
written exactly once. -/
def pi (A : Lanes) : Lanes :=
  (List.finRange 25).foldl (fun B i => B.set (piDest i) A[i]) zeroLanes

/-- `CHI` (R85): the five lanes of a row updated simultaneously. -/
def chi (A : Lanes) : Lanes :=
  lanesOf fun i => A[i] ^^^ (~~~(laneAt A (xOf i + 1) (yOf i)) &&& laneAt A (xOf i + 2) (yOf i))

/-- `IOTA` with round index `ir` (R86): only lane (0,0) changes. -/
def iota (A : Lanes) (ir : Fin 24) : Lanes := lanesOf fun i => if i = 0 then A[i] ^^^ rc ir else A[i]

/-- `ROUND(A, ir)` (R87). -/
def keccakRound (A : Lanes) (ir : Fin 24) : Lanes := iota (chi (pi (rho (theta A)))) ir

/-- `KECCAK_F(A)` (R88): the rounds 0, 1, …, 23 in that order. Irreducible to the elaborator (not to the kernel), so that
no proof evaluates 24 rounds by accident. -/
@[irreducible] def keccakF (A : Lanes) : Lanes := (List.finRange Config.rounds).foldl keccakRound A

/-- The engine's port (R91): `perm_out` for `perm_in`, both flat 1600-bit vectors. -/
def permOut (permIn : BitVec 1600) : BitVec 1600 := flatten (keccakF (unflatten permIn))

end Sys2Proof.Machine
end

