-- ==== Sys2Proof/Machine/State.lean ====
section
/-! DEFINITION. The state of the block and of its ports (10_state.md R20 to R37; 30_encoding.md R60, R70), the outcome
types, and the state after reset. -/

namespace Sys2Proof.Machine

/-- `SEL` (CSR0, 2 bits): the selected digest size (R26). "All four values are legal and there is no other value." -/
inductive Sel where
  | d224 | d256 | d384 | d512
  deriving DecidableEq, Repr

/-- The 2-bit value of `SEL` (R26). -/
def Sel.code : Sel → BitVec 2
  | .d224 => 0
  | .d256 => 1
  | .d384 => 2
  | .d512 => 3

/-- `PHASE` (CSR2, 1 bit): Fresh or Absorbing bookkeeping; read by no rule (R24). -/
inductive Phase where
  | fresh | absorbing
  deriving DecidableEq, Repr

/-- The 1-bit value of `PHASE` (R24). -/
def Phase.code : Phase → BitVec 1
  | .fresh => 0
  | .absorbing => 1

/-- The status of a response (R140): these three and no other. -/
inductive Status where
  /-- `0x00`: every successful command. -/
  | ok
  /-- `0x01`: `INIT` with an unsupported size (R141). -/
  | configurationError
  /-- `0x02`: a word that decodes to no command (R142). -/
  | illegalCommand
  deriving DecidableEq, Repr

/-- A response record `(STATUS, LEN, DATA)` (R70). -/
structure Response where
  status : Status
  len : BitVec 8
  data : BitVec 512
  deriving DecidableEq, Repr

/-- What is left of a command whose permutation is running, in the refinement of R92 (log entry 5). -/
inductive Work where
  /-- `ABSORB`: the payload bytes still to append once the block is absorbed (R123). -/
  | absorbing (rest : List Byte)
  /-- `FINAL`: the digest is still to be squeezed (R125). -/
  | finalizing
  deriving DecidableEq, Repr

/-- All state (R16, INVENTORY.md '## State'). The first nine fields are the block's; the last four are its ports as
the host drives them (R60), which the block never changes but for taking the words and giving the responses
(log entry 2). -/
structure State where
  /-- `A[0..24]` (R20). -/
  lanes : Lanes
  /-- `BUF[0..BUFLEN-1]`; its length is `BUFLEN` (R23, R27; log entry 3). -/
  buf : List Byte
  /-- `SEL` (R26). -/
  sel : Sel
  /-- `PHASE` (R24). -/
  phase : Phase
  /-- `RND`, the next round index, 0 to 24 (R28, R92). -/
  rnd : Fin 25
  /-- `BUSY`, a permutation is in progress (R28, R92). -/
  busy : Bool
  /-- The command in progress (R33, R161, R164), `none` at every command boundary. -/
  work : Option Work
  /-- The pending response (R33, R37): `rsp_valid` and the record. -/
  rsp : Option Response
  /-- Host: the level of `rst` (R60, R160). -/
  rst : Bool
  /-- Host: the words it has still to transfer, in order; `cmd_valid` and `cmd_word` show the first (R60). -/
  cmdIn : List Word
  /-- Host: the level of `rsp_ready` (R60). -/
  rspReady : Bool
  /-- Host: the responses delivered to it, oldest first (R50, R166). -/
  rspOut : List Response
  deriving DecidableEq, Repr

/-- Why the machine stops with a fault: never. Both errors of the block are responses after which it goes on (R142,
R146, R147), and "No other error exists" (R143). Nothing raises a fault, so the empty type is safe: it lets no claim
rest on a stop. -/
inductive Fault where
  deriving DecidableEq, Repr

/-- Why a command has no meaning. -/
inductive Refusal where
  /-- Raised by an arm of `exec` for a command without a meaning yet; none is left. Safe. -/
  | notModelled (mnemonic : String)
  deriving DecidableEq, Repr

/-- The state after reset, `FRESH(1)` (R33, R160). The last four fields are the host's side: nothing offered, nothing
delivered, reset released, ready to take a response (log entry 2). -/
def State.reset : State where
  lanes := Vector.replicate 25 0
  buf := []
  sel := .d256
  phase := .fresh
  rnd := 0
  busy := false
  work := none
  rsp := none
  rst := false
  cmdIn := []
  rspReady := true
  rspOut := []

end Sys2Proof.Machine
end

