-- ==== Sys2Proof/Machine/Flags.lean ====
section
/-! DEFINITION. The block has no flags and no condition codes: "the outcome of a command is reported only in that
command's response" (10_state.md R25). This file computes that report (30_encoding.md R70; 60_exceptions.md R140). -/

namespace Sys2Proof.Machine

/-- The 8-bit code on `rsp_status` (R140). -/
def Status.code : Status → BitVec 8
  | .ok => 0x00
  | .configurationError => 0x01
  | .illegalCommand => 0x02

/-- The record `respond(status, bytes)` emits: `LEN` the number of payload bytes, payload byte `j` at
`DATA[8j+7:8j]`, all higher bits 0 (R14, R70). -/
def responseOf (status : Status) (bytes : List Byte) : Response where
  status := status
  len := BitVec.ofNat 8 bytes.length
  data := packLE 512 bytes

/-- The payload bytes of a response, `DATA[8j+7:8j]` for `j < LEN` (R70). -/
def Response.bytes (r : Response) : List Byte :=
  (List.range r.len.toNat).map fun j => r.data.extractLsb' (8 * j) 8

end Sys2Proof.Machine
end

