-- ==== Sys2Proof/Machine/Params.lean ====
section
/-! DEFINITION. The sizes derived from `SEL` (00_scope.md R7, R15). -/

namespace Sys2Proof.Machine

/-- `DBITS(SEL)`: the digest size in bits (R15). -/
def Sel.dbits : Sel → Nat
  | .d224 => 224
  | .d256 => 256
  | .d384 => 384
  | .d512 => 512

/-- `RATE = 200 − DBITS/4`, in bytes (R7, R15). -/
def Sel.rate (s : Sel) : Nat := 200 - s.dbits / 4

/-- `RLANES = RATE/8`: the lanes of the rate portion (R15, R42). -/
def Sel.rlanes (s : Sel) : Nat := s.rate / 8

/-- `DLEN = DBITS/8`: the digest length in bytes (R15). -/
def Sel.dlen (s : Sel) : Nat := s.dbits / 8

end Sys2Proof.Machine
end

