-- ==== Sys2Proof/Machine/Operands.lean ====
section
/-! DEFINITION. The operand forms (30_encoding.md R65, R67; 43_sponge_commands.md R121, R123). -/

namespace Sys2Proof.Machine

/-- The size `INIT` asks for, compared on the full value; `none` for an unsupported one (R121). -/
def selOfBits (outputBits : Nat) : Option Sel :=
  if outputBits = 224 then some .d224
  else if outputBits = 256 then some .d256
  else if outputBits = 384 then some .d384
  else if outputBits = 512 then some .d512
  else none

/-- The bytes an `ABSORB` carries: the first `n` of `b0, b1, b2`, `b0` the earliest; the others are ignored (R65). -/
def payload (n : Nat) (b0 b1 b2 : Byte) : List Byte := [b0, b1, b2].take n

end Sys2Proof.Machine
end

