-- ==== Sys2Proof/Machine/Padding.lean ====
section
/-! DEFINITION. The padding rule (42_padding_rule.md R110, R111). -/

namespace Sys2Proof.Machine

/-- The domain byte of the original Keccak padding, never `0x06` (R3, R111). -/
def domainByte : Byte := 0x01

/-- The mask ORed into the last byte of the block (R111). -/
def finalMask : Byte := 0x80

/-- `P[k] <- P[k] | m` for a byte sequence. -/
def orByte (P : List Byte) (k : Nat) (m : Byte) : List Byte := P.modify k (· ||| m)

/-- `PAD(n, rate)` as R111's pseudocode has it: `q = rate − n` zero bytes, the domain byte ORed into the first and the
final mask into the last, so that one byte gets both when `q = 1`. Its domain is `n < rate`; outside it the answer (no
byte) is never asked for (R110, U5; log entry 13). -/
def pad (n rate : Nat) : List Byte :=
  let q := rate - n
  let P := List.replicate q (0 : Byte)
  let P := orByte P 0 domainByte
  orByte P (q - 1) finalMask

end Sys2Proof.Machine
end

