-- ==== Sys2Proof/Machine/Ops.lean ====
section
/-! DEFINITION. The shared operations of the commands: responding, raising an error, clearing, the buffer,
ABSORB_BLOCK, SQUEEZE (00_scope.md R14; 43_sponge_commands.md R121 to R128; 60_exceptions.md R146). -/

namespace Sys2Proof.Machine

/-- `BUFLEN` (CSR1, 8 bits): the length of the buffer (R23, R27). -/
def State.bufLen (s : State) : BitVec 8 := BitVec.ofNat 8 s.buf.length

/-- `respond(status, bytes)`: the one response record of the command becomes the pending response (R14, R70). -/
def respond (status : Status) (bytes : List Byte) (s : State) : State :=
  { s with rsp := some (responseOf status bytes) }

/-- `raise`, the block's way of taking an error: "make no state change at all, respond(code, empty)" (R14, R146).
Nothing is saved and control goes nowhere; the return from it is the host taking the response (R147; `deliver` of
Ports.lean). -/
def raiseError (code : Status) (s : State) : State := respond code [] s

/-- `FRESH(sel)`: all lanes 0, empty buffer, the given size, phase FRESH (R32, R121, R122, R126). The commands that
clear the block write nothing else. -/
def clearTo (sel : Sel) (s : State) : State :=
  { s with lanes := zeroLanes, buf := [], sel := sel, phase := .fresh }

/-- `MemRead(BUF, k, n)` (R14). -/
def memReadBuf (s : State) (k n : Nat) : List Byte := (s.buf.drop k).take n

/-- `MemWrite(BUF, BUFLEN, |bs|, bs) ; BUFLEN <- BUFLEN + |bs|` (R14, R123, R125): the buffer is only ever written at
its end. -/
def bufAppend (bs : List Byte) (s : State) : State := { s with buf := s.buf ++ bs }

/-- The XOR of `ABSORB_BLOCK` (R124): lane `j < RLANES` takes the little-endian value of `BUF[8j … 8j+7]`; the capacity
lanes are not touched (R42). -/
def xorBlock (s : State) : State :=
  { s with lanes := lanesOf fun j => if j.val < s.sel.rlanes then s.lanes[j] ^^^ le64 (memReadBuf s (8 * j.val) 8) else s.lanes[j] }

/-- The permutation run to completion: `A <- KECCAK_F(A)` (R88, R124). It leaves `RND` at 24 and `BUSY` at 0, as the
refinement of R92 does (log entry 4). -/
def permute (s : State) : State := { s with lanes := keccakF s.lanes, rnd := 24, busy := false }

/-- `BUFLEN <- 0`: the buffer cleared "logically" (R23, R124). -/
def bufClear (s : State) : State := { s with buf := [] }

/-- `ABSORB_BLOCK` (R124). -/
def absorbBlock (s : State) : State := bufClear (permute (xorBlock s))

/-- One turn of `ABSORB`'s loop (R123): append the byte; if the buffer now holds `RATE` bytes, absorb the block. -/
def absorbByte (s : State) (b : Byte) : State :=
  let s := bufAppend [b] s
  if s.buf.length = s.sel.rate then absorbBlock s else s

/-- The first half of `FINAL` (R125): complete the buffer with `PAD(BUFLEN, RATE)`. -/
def padBuffer (s : State) : State := bufAppend (pad s.buf.length s.sel.rate) s

/-- `SQUEEZE` (R128): the first `DLEN` bytes of the State. -/
def squeeze (s : State) : List Byte := memReadST s.lanes 0 s.sel.dlen

/-- The end of `FINAL` (R125): the digest is taken, then the block is reset to `FRESH(SEL)` and responds. -/
def finishFinal (s : State) : State := respond .ok (squeeze s) (clearTo s.sel s)

/-- The end of `ABSORB` (R123). -/
def finishAbsorb (s : State) : State := respond .ok [] { s with phase := .absorbing }

end Sys2Proof.Machine
end

