-- ==== Sys2Proof/Machine/Configure.lean ====
section
/-! DEFINITION. The configuration commands (43_sponge_commands.md R121, R122). -/

namespace Sys2Proof.Machine

/-- `INIT imm16` (R121): an unsupported size raises ConfigurationError before any state is written; a supported one
makes the block `FRESH` at that size, dropping a message in progress. -/
def execInit (imm16 : Nat) (s : State) : Host.Outcome State Fault Refusal :=
  match selOfBits imm16 with
  | none => .next (raiseError .configurationError s)
  | some sel => .next (respond .ok [] (clearTo sel s))

/-- `INIT256` (R122): "exactly the effect and response of `INIT 256`"; it cannot fail. -/
def execInit256 (s : State) : Host.Outcome State Fault Refusal :=
  .next (respond .ok [] (clearTo .d256 s))

end Sys2Proof.Machine
end

