-- ==== Sys2Proof/Machine/Sponge.lean ====
section
/-! DEFINITION. The commands that hash (43_sponge_commands.md R123, R125). -/

namespace Sys2Proof.Machine

/-- `ABSORB n, b0, b1, b2` (R123): the payload bytes in order, each absorbed on its own. -/
def execAbsorb (n : Nat) (b0 b1 b2 : Byte) (s : State) : Host.Outcome State Fault Refusal :=
  .next (finishAbsorb ((payload n b0 b1 b2).foldl absorbByte s))

/-- `FINAL` (R125): pad, absorb the one final block, answer the digest, clear. -/
def execFinal (s : State) : Host.Outcome State Fault Refusal :=
  .next (finishFinal (absorbBlock (padBuffer s)))

end Sys2Proof.Machine
end

