-- ==== Sys2Proof/Machine/Dispatch.lean ====
section
/-! DEFINITION. One arm per command: its meaning (43_sponge_commands.md R120, R133). -/

namespace Sys2Proof.Machine

def exec (i : Instr) (s : State) : Host.Outcome State Fault Refusal :=
  match i with
  | .init imm16 => Sys2Proof.Machine.execInit imm16 s
  | .init256 => Sys2Proof.Machine.execInit256 s
  | .absorb n b0 b1 b2 => Sys2Proof.Machine.execAbsorb n b0 b1 b2 s
  | .final => Sys2Proof.Machine.execFinal s

end Sys2Proof.Machine
end

