-- ==== Sys2Proof/Machine/Ports.lean ====
section
/-! DEFINITION. The ports and the events of a step (30_encoding.md R60; 70_reset_and_hazards.md R160 to R164). A step of
the machine is one event: a reset, progress of a command in progress, the delivery of a response, the acceptance of a
command, or waiting. -/

namespace Sys2Proof.Machine

/-- A command is in progress (R164). At every command boundary this is false. -/
def State.working (s : State) : Bool := s.busy || s.work.isSome

/-- `cmd_ready`: "only when no command is in progress and no response is pending" (R60), and not while reset is
asserted (R160). -/
def State.cmdReady (s : State) : Bool := !s.rst && !s.working && s.rsp.isNone

/-- `cmd_valid`: the host offers a word (R60). -/
def State.cmdValid (s : State) : Bool := !s.cmdIn.isEmpty

/-- `rsp_valid`: a response is pending (R60). -/
def State.rspValid (s : State) : Bool := s.rsp.isSome

/-- The three response buses `rsp_status`, `rsp_len`, `rsp_data`, meaningful while `rsp_valid` is asserted (R60, R70). -/
def State.rspBuses (s : State) : Option (BitVec 8 × BitVec 8 × BitVec 512) :=
  s.rsp.map fun r => (r.status.code, r.len, r.data)

/-- What the next step does. -/
inductive Event where
  /-- `rst` is asserted (R161). -/
  | reset
  /-- A command is in progress (R34, R92). -/
  | progress
  /-- `rsp_valid` and `rsp_ready`: the response is delivered (R60). -/
  | deliver (r : Response)
  /-- A response is pending and the host does not take it: the block holds it (R164, U7). -/
  | hold
  /-- Nothing to do: the block "simply waits for `cmd_valid`" (R152). -/
  | idle
  /-- `cmd_valid` and `cmd_ready`: the first word offered is transferred, the rest stay offered (R60). -/
  | command (w : Word) (rest : List Word)
  deriving DecidableEq, Repr

/-- Reset overrides everything (R145, R161); a command in progress runs on before anything else happens (R164); a
pending response is taken before the next command is accepted (R50, R164). -/
def State.nextEvent (s : State) : Event :=
  if s.rst then .reset
  else if s.working then .progress
  else
    match s.rsp, s.cmdIn with
    | some r, _ => if s.rspReady then .deliver r else .hold
    | none, [] => .idle
    | none, w :: rest => .command w rest

/-- The reset event: the block is `FRESH(1)` however far a command had got; its command is abandoned and a pending
response dropped (R160, R161). What the host drives and has received is not the block's (log entry 8). -/
def hardReset (s : State) : State :=
  { State.reset with rst := s.rst, cmdIn := s.cmdIn, rspReady := s.rspReady, rspOut := s.rspOut }

/-- The response is delivered, exactly once (R48, R60). -/
def deliver (r : Response) (s : State) : State := { s with rsp := none, rspOut := s.rspOut ++ [r] }

/-- The first word offered is transferred: the rest stay offered (R60). -/
def takeWord (rest : List Word) (s : State) : State := { s with cmdIn := rest }

/-- An undecodable word: "The block makes no state change and responds `(0x02, 0, 0)`" (R142). -/
def raiseIllegalCommand (s : State) : State := raiseError .illegalCommand s

/-- The word offered when `w` is a number of `nbits` bits (log entry 10). -/
def tableWord (nbits w : Nat) : Word := BitVec.ofNat 32 (w % 2 ^ nbits)

/-- The block ready to accept `w` as its very next command: `w` first among the words offered, and nothing that would
come before it (reset, a command in progress, a pending response). -/
def offerNext (w : Word) (s : State) : State :=
  { s with rst := false, busy := false, work := none, rsp := none, cmdIn := w :: s.cmdIn }

end Sys2Proof.Machine
end

