-- ==== Sys2Proof/Machine/Refined.lean ====
section
/-! DEFINITION. The finer machine: one round of the permutation per step, with `RND` and `BUSY` (10_state.md R28, R34;
40_permutation_engine.md R92). A command whose block fills stops at the permutation with what is left of it in `work`;
each further step is one engine step, then the completion, which resumes the command. Nothing here is visible to the
host; the commands' meanings proper are the atomic ones of Configure.lean and Sponge.lean. -/

namespace Sys2Proof.Machine

/-- `on perm_start`: the engine works in place on `A` (R91, R92). -/
def engineStart (s : State) : State := { s with rnd := 0, busy := true }

/-- `engine step`: enabled iff `BUSY = 1` and `RND < 24` (R92); else nothing. -/
def engineStep (s : State) : State :=
  if s.busy = true then
    if h : s.rnd.val < 24 then
      { s with lanes := keccakRound s.lanes ⟨s.rnd.val, h⟩, rnd := ⟨s.rnd.val + 1, by omega⟩ }
    else s
  else s

/-- `completion`: `perm_done`, `BUSY <- 0` (R92). -/
def engineDone (s : State) : State := { s with busy := false }

/-- A block is complete: XOR it into the lanes and start the engine, keeping what is left of the command. -/
def beginBlock (w : Work) (s : State) : State := { engineStart (xorBlock s) with work := some w }

/-- `ABSORB`'s loop up to the next full buffer, or to its end (R123). -/
def absorbFrom : List Byte → State → State
  | [], s => { finishAbsorb s with work := none }
  | b :: rest, s =>
    let s := bufAppend [b] s
    if s.buf.length = s.sel.rate then beginBlock (.absorbing rest) s else absorbFrom rest s

/-- The permutation is done and the buffer cleared: the command goes on. -/
def resumeWork (s : State) : State :=
  match s.work with
  | none => s
  | some (.absorbing rest) => absorbFrom rest s
  | some .finalizing => { finishFinal s with work := none }

/-- One fine step of the command in progress. -/
def advance (s : State) : State :=
  if s.busy = true ∧ s.rnd.val < 24 then engineStep s else resumeWork (bufClear (engineDone s))

/-- A command accepted by the finer machine: it runs up to its first permutation, or to its end. -/
def beginCommand (i : Instr) (s : State) : State :=
  match i with
  | .init imm16 =>
    match selOfBits imm16 with
    | none => raiseError .configurationError s
    | some sel => respond .ok [] (clearTo sel s)
  | .init256 => respond .ok [] (clearTo .d256 s)
  | .absorb n b0 b1 b2 => absorbFrom (payload n b0 b1 b2) s
  | .final => beginBlock .finalizing (padBuffer s)

end Sys2Proof.Machine
end

