-- ==== Sys2Proof/Machine/Step.lean ====
section
/-! DEFINITION. One step of the machine (00_scope.md R9; 20_memory.md R50; 30_encoding.md R60): the events of Ports.lean,
a command being one atomic step from its acceptance to its response. -/

namespace Sys2Proof.Machine

/-- One step. A command word is transferred and executed in the same step (R9); its response is delivered by a later
one. A command in progress (only the finer machine, `fineStep`, leaves one) is carried on one round at a time. -/
def step (s : State) : Host.Outcome State Fault Refusal :=
  match s.nextEvent with
  | .reset => .next (hardReset s)
  | .progress => .next (advance s)
  | .deliver r => .next (deliver r s)
  | .hold => .next s
  | .idle => .next s
  | .command w rest =>
    match decode w with
    | .ok i => exec i (takeWord rest s)
    | .error _ => .next (raiseIllegalCommand (takeWord rest s))

/-- One step of the finer machine of R92: as `step`, but a command accepted stops at its permutation. -/
def fineStep (s : State) : State :=
  match s.nextEvent with
  | .reset => hardReset s
  | .progress => advance s
  | .deliver r => deliver r s
  | .hold => s
  | .idle => s
  | .command w rest =>
    match decode w with
    | .ok i => beginCommand i (takeWord rest s)
    | .error _ => raiseIllegalCommand (takeWord rest s)

/-- The word is put where the next step takes its command from: first on the command port, with the port ready
(log entry 10). -/
def State.withFetchWord (s : State) (nbits w : Nat) : State := offerNext (tableWord nbits w) s

end Sys2Proof.Machine
end

