-- ==== Sys2Proof/Machine/Assembler.lean ====
section
/-! DEFINITION. The assembler's lines, the pseudo-instructions and their expansions (30_encoding.md R71, R72), and
reading a line from its text (R71). Text details R71 does not settle are in log entry 15. -/

namespace Sys2Proof.Machine

/-- One line of assembler source (R71, R72). -/
inductive Line where
  | init (d : Nat)
  | init256
  /-- `ABSORB` with zero to three byte values. -/
  | absorb (bytes : List Byte)
  | final
  /-- `.word <w>`. -/
  | word (w : Word)
  | absorbs (bytes : List Byte)
  | hash (d : Nat) (bytes : List Byte)
  | hash256 (bytes : List Byte)
  deriving DecidableEq, Repr

/-- `ABSORB` of up to three bytes: "absent bytes assemble as 0" (R71). -/
def absorbCommand (bs : List Byte) : Instr := .absorb bs.length (bs.getD 0 0) (bs.getD 1 0) (bs.getD 2 0)

/-- The bytes three at a time in order, the last group what is left; no group for no byte (R72). -/
def groupsOfThree : List Byte → List (List Byte)
  | [] => []
  | [a] => [[a]]
  | [a, b] => [[a, b]]
  | a :: b :: c :: rest => [a, b, c] :: groupsOfThree rest

/-- `ABSORBS <bytes>`: `⌈L/3⌉` `ABSORB` commands (R72). -/
def expandAbsorbs (bs : List Byte) : List Instr := (groupsOfThree bs).map absorbCommand

/-- `HASH <d>, <bytes>` expands to `INIT <d>`; `ABSORBS <bytes>`; `FINAL` (R72). -/
def expandHash (d : Nat) (bs : List Byte) : List Instr := .init d :: (expandAbsorbs bs ++ [.final])

/-- `HASH256 <bytes>` expands to `INIT256`; `ABSORBS <bytes>`; `FINAL` (R72, R132). -/
def expandHash256 (bs : List Byte) : List Instr := .init256 :: (expandAbsorbs bs ++ [.final])

/-- The words of a line (R71, R72). -/
def Line.assemble : Line → List Word
  | .init d => [encode (.init d)]
  | .init256 => [encode .init256]
  | .absorb bs => [encode (absorbCommand bs)]
  | .final => [encode .final]
  | .word w => [w]
  | .absorbs bs => (expandAbsorbs bs).map encode
  | .hash d bs => (expandHash d bs).map encode
  | .hash256 bs => (expandHash256 bs).map encode

/-- The tokens of a line's text: a bare word, a string's characters, a comma. -/
inductive Token where
  | bare (cs : List Char)
  | str (cs : List Char)
  | comma
  deriving DecidableEq, Repr

/-- A bare word ends: it is a token unless it is empty. The characters are collected in reverse. -/
def endBare (acc : List Char) (rest : List Token) : List Token :=
  if acc.isEmpty then rest else .bare acc.reverse :: rest

/-- The tokens of a text, read from left to right: whether a string is open, and the word or string so far in reverse.
A `;` outside a string starts a comment (R71). The model's choices where R71 and R72 are silent (log entry 15): a quote ends
a word and begins a string with or without a blank before it (`ABSORBS"abc"`), and a closing quote needs no blank after
it; blanks and tabs are all the blank characters; there is no escape in a string; an unclosed string gives no token
list. -/
def tokens : (inString : Bool) → (acc : List Char) → List Char → Option (List Token)
  | false, acc, [] => some (endBare acc [])
  | true, _, [] => none
  | true, acc, c :: cs =>
    if c = '"' then (tokens false [] cs).map (.str acc.reverse :: ·) else tokens true (c :: acc) cs
  | false, acc, c :: cs =>
    if c = ';' then some (endBare acc [])
    else if c = '"' then (tokens true [] cs).map (endBare acc)
    else if c = ',' then (tokens false [] cs).map (fun ts => endBare acc (.comma :: ts))
    else if c = ' ' ∨ c = '\t' then (tokens false [] cs).map (endBare acc)
    else tokens false (c :: acc) cs

/-- The value of a digit in the given base. -/
def digitValue (base : Nat) (c : Char) : Option Nat :=
  let v := if '0' ≤ c ∧ c ≤ '9' then c.toNat - 48
    else if 'a' ≤ c ∧ c ≤ 'f' then c.toNat - 87
    else if 'A' ≤ c ∧ c ≤ 'F' then c.toNat - 55
    else base
  if v < base then some v else none

/-- A nonempty sequence of digits, most significant first. -/
def digits (base : Nat) : List Char → Option Nat
  | [] => none
  | cs => cs.foldl (fun acc c => acc.bind fun v => (digitValue base c).map (base * v + ·)) (some 0)

/-- "numbers in decimal or `0x` hexadecimal" (R71). -/
def number : List Char → Option Nat
  | '0' :: 'x' :: cs => digits 16 cs
  | cs => digits 10 cs

/-- A number below the bound. -/
def numberBelow (bound : Nat) (cs : List Char) : Option Nat :=
  (number cs).bind fun v => if v < bound then some v else none

/-- Comma-separated byte values after the first (R71). -/
def moreBytes : List Token → Option (List Byte)
  | [] => some []
  | .comma :: .bare cs :: rest =>
    (numberBelow 256 cs).bind fun v => (moreBytes rest).map (BitVec.ofNat 8 v :: ·)
  | _ => none

/-- Zero or more comma-separated byte values (R71). -/
def byteList : List Token → Option (List Byte)
  | [] => some []
  | .bare cs :: rest => (numberBelow 256 cs).bind fun v => (moreBytes rest).map (BitVec.ofNat 8 v :: ·)
  | _ => none

/-- A byte list or a string; "A string is the sequence of its ASCII codes" (R72). -/
def bytesOrString : List Token → Option (List Byte)
  | [.str cs] => if cs.all (fun c => decide (c.toNat < 128)) then some (cs.map fun c => BitVec.ofNat 8 c.toNat) else none
  | ts => byteList ts

/-- The line a token sequence stands for (R71, R72). -/
def lineOfTokens : List Token → Option Line
  | .bare name :: args =>
    if name = "INIT".toList then
      match args with
      | [.bare cs] => (numberBelow 65536 cs).map .init
      | _ => none
    else if name = "INIT256".toList then if args.isEmpty then some .init256 else none
    else if name = "ABSORB".toList then
      (byteList args).bind fun bs => if bs.length ≤ 3 then some (.absorb bs) else none
    else if name = "FINAL".toList then if args.isEmpty then some .final else none
    else if name = ".word".toList then
      match args with
      | [.bare cs] => (numberBelow (2 ^ 32) cs).map fun v => .word (BitVec.ofNat 32 v)
      | _ => none
    else if name = "ABSORBS".toList then (bytesOrString args).map .absorbs
    else if name = "HASH".toList then
      match args with
      | .bare cs :: .comma :: rest => (numberBelow 65536 cs).bind fun d => (bytesOrString rest).map (.hash d)
      | _ => none
    else if name = "HASH256".toList then (bytesOrString args).map .hash256
    else none
  | _ => none

/-- The words of one line of source text: none for a line that is not of R71's syntax, no word for a blank line or a
comment. -/
def assembleText (cs : List Char) : Option (List Word) :=
  (tokens false [] cs).bind fun ts => if ts.isEmpty then some [] else (lineOfTokens ts).map Line.assemble

end Sys2Proof.Machine
end

