-- ==== Sys2Proof/Machine/Hash.lean ====
section
/-! DEFINITION. The function the block computes, written on whole messages and without the machine: `KECCAK[s](M)`
(43_sponge_commands.md R129). No meaning calls it; statements compare the machine with it. -/

namespace Sys2Proof.Machine

/-- A block as `RLANES` little-endian lanes, zero-extended to 25 lanes (R129). -/
def blockLanes (sel : Sel) (block : List Byte) : Lanes :=
  lanesOf fun j => if j.val < sel.rlanes then le64 ((block.drop (8 * j.val)).take 8) else 0

/-- `S_{t+1} = KECCAK_F(S_t ⊕ block_t)` over the first `k` blocks of the byte sequence (R129). -/
def absorbBlocks (sel : Sel) : Nat → List Byte → Lanes → Lanes
  | 0, _, S => S
  | k + 1, m, S => absorbBlocks sel k (m.drop sel.rate) (keccakF (xorLanes S (blockLanes sel (m.take sel.rate))))

/-- `M' = M ‖ PAD(L mod r, r)` (R129). -/
def paddedMessage (sel : Sel) (m : List Byte) : List Byte := m ++ pad (m.length % sel.rate) sel.rate

/-- `KECCAK[s](M)`: the first `DLEN(s)` bytes after `⌊L/r⌋ + 1` blocks from the zero State (R129). -/
def keccak (sel : Sel) (m : List Byte) : List Byte :=
  memReadST (absorbBlocks sel (m.length / sel.rate + 1) (paddedMessage sel m) zeroLanes) 0 sel.dlen

end Sys2Proof.Machine
end

