-- ==== Sys2Proof/Safety.lean ====
section
/-! DEFINITION. What a state between commands looks like, what a run is, and what the statements call safe
(10_state.md R24, R27, R32; 20_memory.md R50; 70_reset_and_hazards.md R164, R166). -/

namespace Sys2Proof.Machine

/-- `FRESH(sel)` (R32). -/
structure State.FreshAt (s : State) (sel : Sel) : Prop where
  lanes : s.lanes = zeroLanes
  buf : s.buf = []
  sel : s.sel = sel
  phase : s.phase = .fresh
  busy : s.busy = false

/-- Nothing comes before the next command: no reset, no command in progress, no response pending (R60, R164). -/
structure State.Ready (s : State) : Prop where
  rst : s.rst = false
  busy : s.busy = false
  work : s.work = none
  rsp : s.rsp = none

/-- The block is quiescent (R166). -/
def State.Quiescent (s : State) : Prop := s.working = false ∧ s.rsp = none

/-- A response record as R70 allows it: a payload only with status 0, of length 0 or one of the four digest lengths,
and no bit of `DATA` set above it. -/
structure Response.Wf (r : Response) : Prop where
  error_empty : r.status ≠ .ok → r.len = 0
  len_mem : r.len.toNat ∈ [0, 28, 32, 48, 64]
  data_above : r.data >>> (8 * r.len.toNat) = 0

/-- The invariant of the states between commands (R24, R27, R28, R70). -/
structure State.Inv (s : State) : Prop where
  /-- "At every command boundary `0 ≤ BUFLEN ≤ RATE − 1`" (R27). -/
  buf_lt : s.buf.length < s.sel.rate
  /-- "At every command boundary `BUSY = 0`" (R28). -/
  busy : s.busy = false
  /-- No command in progress (R9). -/
  work : s.work = none
  /-- "`PHASE = FRESH` implies `BUFLEN = 0` and `A = 0`" (R24). -/
  fresh : s.phase = .fresh → s.buf = [] ∧ s.lanes = zeroLanes
  /-- The pending response is a record of R70. -/
  rsp_wf : ∀ r, s.rsp = some r → r.Wf
  /-- So is every response delivered. -/
  out_wf : ∀ r ∈ s.rspOut, r.Wf

/-- A command of the finer machine stopped at its permutation (R34, R92, R123): the buffer holds the whole block, no
response is pending, and an `ABSORB` has at most two bytes left, for the block took at least one. -/
structure State.MidCommand (s : State) : Prop where
  busy : s.busy = true
  buf_full : s.buf.length = s.sel.rate
  rsp : s.rsp = none
  work : s.work = some .finalizing ∨ ∃ rest, s.work = some (.absorbing rest) ∧ rest.length < Config.maxPayload
  out_wf : ∀ r ∈ s.rspOut, r.Wf

/-- The invariant of the finer machine: between commands, or inside one at its permutation. -/
def State.FineInv (s : State) : Prop := s.Inv ∨ s.MidCommand

/-- Commands executed one after the other (R50, R127). Each leaves its response pending; the next one's replaces it
here, as if the host had taken it. -/
def execAll : List Instr → State → Host.Outcome State Fault Refusal
  | [], s => .next s
  | i :: is, s =>
    match exec i s with
    | .next t => execAll is t
    | .fault r => .fault r
    | .refused r => .refused r

/-- `n` steps of the finer machine. -/
def fineRun : Nat → State → State
  | 0, s => s
  | n + 1, s => fineRun n (fineStep s)

/-- What the host drives before a step: the levels of `rst` and `rsp_ready`, and further words to transfer (R60). -/
structure Pins where
  rst : Bool
  rspReady : Bool
  offer : List Word
  deriving DecidableEq, Repr

/-- The host sets its pins; the words it offered before stay offered until they are transferred. -/
def State.drive (p : Pins) (s : State) : State :=
  { s with rst := p.rst, rspReady := p.rspReady, cmdIn := s.cmdIn ++ p.offer }

/-- A run in which the host drives its pins before each step. -/
def runPins : List Pins → State → Host.Outcome State Fault Refusal
  | [], s => .next s
  | p :: ps, s =>
    match step (s.drive p) with
    | .next t => runPins ps t
    | .fault r => .fault r
    | .refused r => .refused r

end Sys2Proof.Machine
end

