-- ==== Sys2Proof/Certificates/Slice0/Obligations.lean ====
section
/-! DEFINITION. The statements for the provers. Each docstring names the rules of spec/ it formalises; where a clause rests
on a choice of the model, the docstring names the log entry. -/

open Sys2Proof Sys2Proof.Machine

/-! ## Encoding -/

/-- Decode and encode agree on every well-formed command, with every operand at every value (R63 to R66, R69). -/
def Obligations.DecodeOfEncodeIsTheCommand : Prop :=
  ∀ i : Instr, i.wf = true → decode (encode i) = .ok i

/-- Each word has one meaning: a word that decodes is the encoding of the command it decodes to, which is well-formed;
so the decoder drops no bit of a word (R61, R69). -/
def Obligations.EncodeOfDecodeIsTheWord : Prop :=
  ∀ (w : Word) (i : Instr), decode w = .ok i → i.wf = true ∧ encode i = w

/-- R62: a word is a row's command exactly when `(W & mask) = match`; the rows' sets of words are disjoint; a word in
none of them is illegal. -/
def Obligations.DecodeAgreesWithMaskAndMatch : Prop :=
  ∀ w : Word,
    (∀ r ∈ opTable, w &&& r.mask = r.pattern ↔ ∃ i, decode w = .ok i ∧ i.row = r) ∧
    (∀ r ∈ opTable, ∀ r' ∈ opTable, w &&& r.mask = r.pattern → w &&& r'.mask = r'.pattern → r = r') ∧
    ((∀ r ∈ opTable, w &&& r.mask ≠ r.pattern) ↔ ∃ e, decode w = .error e)

/-- R68: the illegal words are exactly those the rule lists, and the block answers each with status 2 and no state
change but the transfer of the word. -/
def Obligations.IllegalWordsAreExactlyThoseListed : Prop :=
  ∀ w : Word,
    ((∃ e, decode w = .error e) ↔
      (w.toNat / 2 ^ 28 = 0 ∨ 5 ≤ w.toNat / 2 ^ 28) ∨
      (w.toNat / 2 ^ 28 = 1 ∧ w.toNat / 2 ^ 16 % 2 ^ 12 ≠ 0) ∨
      (w.toNat / 2 ^ 28 = 2 ∧ w.toNat % 2 ^ 28 ≠ 0) ∨
      (w.toNat / 2 ^ 28 = 3 ∧ w.toNat / 2 ^ 26 % 4 ≠ 0) ∨
      (w.toNat / 2 ^ 28 = 4 ∧ w.toNat % 2 ^ 28 ≠ 0)) ∧
    ∀ (s : State) (rest : List Word), s.Ready → s.cmdIn = w :: rest → (∃ e, decode w = .error e) →
      step s = .next { s with cmdIn := rest, rsp := some ⟨.illegalCommand, 0, 0⟩ } ∧ Status.illegalCommand.code = 2

/-- Words written out from the encodings of R63 to R66 decode to the commands they stand for. -/
def Obligations.WordsOfTheSpecDecode : Prop :=
  decode 0x100000E0 = .ok (.init 224) ∧ decode 0x10000064 = .ok (.init 100) ∧ decode 0x20000000 = .ok .init256 ∧
  decode 0x33636261 = .ok (.absorb 3 0x61 0x62 0x63) ∧ decode 0x31FFFF61 = .ok (.absorb 1 0x61 0xFF 0xFF) ∧
  decode 0x40000000 = .ok .final

/-! ## Steps of the machine -/

/-- A step runs the command the offered word decodes to, in the state in which the word has been transferred
(R9, R22, R60). -/
def Obligations.StepRunsTheDecodedCommand : Prop :=
  ∀ (s : State) (w : Word) (rest : List Word) (i : Instr),
    s.Ready → s.cmdIn = w :: rest → decode w = .ok i → step s = exec i { s with cmdIn := rest }

/-- R33: what reset leaves. (The host's side of State.reset is log entry 2 and no part of this statement.) -/
def Obligations.ResetLeavesAFresh256Hasher : Prop :=
  (∀ i : Fin 25, State.reset.lanes[i] = 0) ∧ State.reset.bufLen = 0 ∧ State.reset.sel.code = 1 ∧
  State.reset.sel.rate = 136 ∧ State.reset.sel.dlen = 32 ∧ State.reset.phase = .fresh ∧ State.reset.busy = false ∧
  State.reset.rnd = 0 ∧ State.reset.rsp = none ∧ State.reset.work = none

/-- R161: reset asserted in any state whatever, in the middle of a permutation too: the command is abandoned, a pending
response is dropped and never delivered, and the block is `FRESH(1)`. (That the words still offered and the responses
already delivered stay as they are is log entry 8.) -/
def Obligations.AssertedResetAbandonsEverything : Prop :=
  ∀ s : State, s.rst = true → ∃ t, step s = .next t ∧ fineStep s = t ∧
    t.FreshAt .d256 ∧ t.rnd = 0 ∧ t.work = none ∧ t.rsp = none ∧
    t.rspOut = s.rspOut ∧ t.cmdIn = s.cmdIn ∧ t.rst = s.rst ∧ t.rspReady = s.rspReady

/-- R60, R152, R164: between commands the block holds a pending response while the host does not take it, delivers it
once when it does, and waits when there is nothing to do; nothing else changes. (A step that waits is log entry 6.) -/
def Obligations.BlockHoldsDeliversAndWaits : Prop :=
  ∀ s : State, s.rst = false → s.working = false →
    (∀ r, s.rsp = some r → s.rspReady = false → step s = .next s) ∧
    (∀ r, s.rsp = some r → s.rspReady = true → step s = .next { s with rsp := none, rspOut := s.rspOut ++ [r] }) ∧
    (s.rsp = none → s.cmdIn = [] → step s = .next s)

/-- R50, R70: every word accepted, legal or not, gets exactly one response, a record of R70's form: `LEN` is `DLEN` for a
`FINAL` and 0 otherwise, and only the word is transferred. -/
def Obligations.EveryAcceptedWordGetsOneResponse : Prop :=
  ∀ (s : State) (w : Word) (rest : List Word), s.Ready → s.cmdIn = w :: rest →
    ∃ t r, step s = .next t ∧ t.rsp = some r ∧ r.Wf ∧
      (decode w = .ok .final → r.len.toNat = s.sel.dlen) ∧ (decode w ≠ .ok .final → r.len = 0 ∧ r.data = 0) ∧
      t.cmdIn = rest ∧ t.rspOut = s.rspOut ∧ t.rst = s.rst ∧ t.rspReady = s.rspReady ∧ t.busy = false ∧ t.work = none

/-- R60: a word is transferred only when `cmd_valid` and `cmd_ready` are both asserted, the first one offered, and a
response is delivered only when `rsp_valid` and `rsp_ready` are both asserted; whatever the step, in a command's
permutation too. -/
def Obligations.TransfersHappenOnlyOnTheHandshakes : Prop :=
  ∀ s t : State, step s = .next t →
    (t.cmdIn ≠ s.cmdIn → s.cmdReady = true ∧ s.cmdValid = true ∧ ∃ w, s.cmdIn = w :: t.cmdIn) ∧
    (t.rspOut ≠ s.rspOut → s.rspValid = true ∧ s.rspReady = true ∧
      ∃ r, s.rsp = some r ∧ t.rspOut = s.rspOut ++ [r] ∧ t.rsp = none) ∧
    t.rst = s.rst ∧ t.rspReady = s.rspReady

/-! ## The commands -/

/-- R121: `INIT` with one of the four sizes clears the block and selects the size, dropping a message in progress; with
any other value it responds ConfigurationError and changes nothing. -/
def Obligations.InitSelectsTheSizeOrChangesNothing : Prop :=
  ∀ (s : State) (d : Nat),
    (∀ sel, (d, sel) ∈ [(224, Sel.d224), (256, Sel.d256), (384, Sel.d384), (512, Sel.d512)] →
      exec (.init d) s = .next { s with
        lanes := Vector.replicate 25 0, buf := [], sel := sel, phase := .fresh, rsp := some ⟨.ok, 0, 0⟩ }) ∧
    (d ∉ [224, 256, 384, 512] → exec (.init d) s = .next { s with rsp := some ⟨.configurationError, 0, 0⟩ })

/-- R122: `INIT256` has exactly the effect and response of `INIT 256`, and it cannot fail. -/
def Obligations.Init256IsInitOf256 : Prop :=
  ∀ s : State,
    exec .init256 s = .next { s with
      lanes := Vector.replicate 25 0, buf := [], sel := .d256, phase := .fresh, rsp := some ⟨.ok, 0, 0⟩ } ∧
    exec .init256 s = exec (.init 256) s

/-- R123: `ABSORB` with fewer bytes than the block still needs appends them; with at least as many it absorbs the
completed block (R124: XOR of the rate lanes, one permutation) and buffers the rest. `BUFLEN < RATE` is R27's
boundary condition, an invariant (`StepKeepsTheInvariant`). `RND`, which every permutation may change (R28), is left
unsaid in the second case. -/
def Obligations.AbsorbBuffersOrAbsorbsTheBlock : Prop :=
  ∀ (s : State) (n : Nat) (b0 b1 b2 : Byte), s.buf.length < s.sel.rate →
    let p := [b0, b1, b2].take n
    let k := s.sel.rate - s.buf.length
    (p.length < k → exec (.absorb n b0 b1 b2) s =
      .next { s with buf := s.buf ++ p, phase := .absorbing, rsp := some ⟨.ok, 0, 0⟩ }) ∧
    (k ≤ p.length → ∃ t, exec (.absorb n b0 b1 b2) s = .next t ∧
      t.lanes = keccakF (xorLanes s.lanes (blockLanes s.sel (s.buf ++ p.take k))) ∧ t.buf = p.drop k ∧
      t.sel = s.sel ∧ t.phase = .absorbing ∧ t.rsp = some ⟨.ok, 0, 0⟩ ∧ t.busy = false ∧ t.work = s.work ∧
      t.rst = s.rst ∧ t.cmdIn = s.cmdIn ∧ t.rspReady = s.rspReady ∧ t.rspOut = s.rspOut)

/-- R125: `FINAL` pads the buffer to one block, absorbs it with one permutation, answers the first `DLEN` bytes of the
State (R70: byte `j` at `DATA[8j+7:8j]`, zero above) and leaves `FRESH(SEL)`. -/
def Obligations.FinalAnswersTheDigestAndResets : Prop :=
  ∀ s : State,
    let A := keccakF (xorLanes s.lanes (blockLanes s.sel (s.buf ++ pad s.buf.length s.sel.rate)))
    ∃ t r, exec .final s = .next t ∧ t.rsp = some r ∧
      r.status = .ok ∧ r.len.toNat = s.sel.dlen ∧
      (∀ j, j < s.sel.dlen → r.data.extractLsb' (8 * j) 8 = (stBytes A).getD j 0) ∧ r.data >>> (8 * s.sel.dlen) = 0 ∧
      t.FreshAt s.sel ∧ t.work = s.work ∧
      t.rst = s.rst ∧ t.cmdIn = s.cmdIn ∧ t.rspReady = s.rspReady ∧ t.rspOut = s.rspOut

/-- R127: every command is accepted in every state, and `PHASE` moves as the transition table says (an illegal word and
reset are in `ErrorsChangeNothing` and `AssertedResetAbandonsEverything`). -/
def Obligations.PhaseFollowsTheTransitionTable : Prop :=
  ∀ (i : Instr) (s : State), ∃ t, exec i s = .next t ∧
    (∀ d, i = .init d → t.phase = if d ∈ [224, 256, 384, 512] then .fresh else s.phase) ∧
    (i = .init256 → t.phase = .fresh) ∧ (∀ n b0 b1 b2, i = .absorb n b0 b1 b2 → t.phase = .absorbing) ∧
    (i = .final → t.phase = .fresh)

/-- R146: a command that ends with a non-zero status has changed nothing: its word is transferred and its response is
pending, with no payload. -/
def Obligations.ErrorsChangeNothing : Prop :=
  ∀ (s t : State) (w : Word) (rest : List Word) (r : Response), s.Ready → s.cmdIn = w :: rest → step s = .next t →
    t.rsp = some r → r.status ≠ .ok → t = { s with cmdIn := rest, rsp := some ⟨r.status, 0, 0⟩ }

/-- R140, R141, R145: the status tells the cause. An undecodable word gives 2, whatever its operand bits; a decoded `INIT`
with an unsupported size gives 1; every other word gives 0. -/
def Obligations.StatusTellsTheCause : Prop :=
  ∀ (s : State) (w : Word) (rest : List Word), s.Ready → s.cmdIn = w :: rest →
    ∃ t r, step s = .next t ∧ t.rsp = some r ∧
      (r.status.code = 2 ↔ ∃ e, decode w = .error e) ∧
      (r.status.code = 1 ↔ ∃ d, decode w = .ok (.init d) ∧ d ∉ [224, 256, 384, 512]) ∧
      (r.status.code = 0 ∨ r.status.code = 1 ∨ r.status.code = 2)

/-- R26: a step changes `SEL` only by reset, to 256 bits; by a successful `INIT`, to the size asked for; or by
`INIT256`. -/
def Obligations.OnlyConfigurationChangesTheSize : Prop :=
  ∀ s t : State, step s = .next t → t.sel ≠ s.sel →
    (s.rst = true ∧ t.sel = .d256) ∨
    ∃ w rest, s.Ready ∧ s.cmdIn = w :: rest ∧
      ((∃ d, decode w = .ok (.init d) ∧ d = t.sel.dbits) ∨ (decode w = .ok .init256 ∧ t.sel = .d256))

/-- R21, R42: a step from a state between commands leaves the lanes, clears them, or replaces them by the permutation of
lanes that differ from them in the rate portion only: input is never XORed into the capacity. -/
def Obligations.LanesAreWrittenOnlyAsListed : Prop :=
  ∀ s t : State, s.working = false → step s = .next t →
    t.lanes = s.lanes ∨ t.lanes = zeroLanes ∨
    ∃ B : Lanes, (∀ j : Fin 25, s.sel.rlanes ≤ j.val → B[j] = s.lanes[j]) ∧ t.lanes = keccakF B

/-- R24, R28, R131: the response of a command, and the lanes, buffer and size after it, depend on the lanes, buffer and
size before it alone: `PHASE`, `RND`, `BUSY` and the host's side are not observable through a command. -/
def Obligations.ResponsesDependOnLanesBufferAndSizeAlone : Prop :=
  ∀ (i : Instr) (s u : State), s.lanes = u.lanes → s.buf = u.buf → s.sel = u.sel →
    ∃ t v, exec i s = .next t ∧ exec i u = .next v ∧
      t.rsp = v.rsp ∧ t.lanes = v.lanes ∧ t.buf = v.buf ∧ t.sel = v.sel

/-- R126: `FINAL` on a fresh block answers the digest of the empty message and leaves it fresh with the same size; a
second `FINAL` answers the same. -/
def Obligations.FinalizeTwiceAnswersTheSameDigest : Prop :=
  ∀ (s : State) (sel : Sel), s.FreshAt sel →
    ∃ t v, exec .final s = .next t ∧ t.FreshAt sel ∧ t.rsp = some (responseOf .ok (keccak sel [])) ∧
      exec .final t = .next v ∧ v.FreshAt sel ∧ v.rsp = t.rsp

/-! ## What the block computes -/

/-- R129: from a fresh block, the steps that run any `ABSORB` commands and then `FINAL`, the host taking each response,
deliver one OK response per `ABSORB` and then the digest `KECCAK[sel](M)` of the concatenated payloads, and end fresh. -/
def Obligations.RunOfAMessageAnswersItsDigest : Prop :=
  ∀ (sel : Sel) (s : State) (chunks : List (List Byte)), (∀ c ∈ chunks, c.length ≤ 3) →
    s.FreshAt sel → s.Ready → s.rspReady = true →
    s.cmdIn = chunks.map (fun c => encode (absorbCommand c)) ++ [encode Instr.final] →
    ∃ t : State, Host.Core.run Sys2Proof.core (2 * (chunks.length + 1)) s = .next t ∧
      t.FreshAt sel ∧ t.Ready ∧ t.cmdIn = [] ∧
      t.rspOut = s.rspOut ++ List.replicate chunks.length ⟨.ok, 0, 0⟩ ++ [responseOf .ok (keccak sel chunks.flatten)]

/-- R130: chunking invariance. From any state, two ways of cutting the same bytes into `ABSORB` commands leave the same
lanes, buffer and size, and the `FINAL` after them answers the same. -/
def Obligations.ChunkingDoesNotMatter : Prop :=
  ∀ (s : State) (cs ds : List (List Byte)), (∀ c ∈ cs, c.length ≤ 3) → (∀ d ∈ ds, d.length ≤ 3) →
    cs.flatten = ds.flatten →
    ∃ t u t' u', execAll (cs.map absorbCommand) s = .next t ∧ execAll (ds.map absorbCommand) s = .next u ∧
      t.lanes = u.lanes ∧ t.buf = u.buf ∧ t.sel = u.sel ∧
      execAll (cs.map absorbCommand ++ [Instr.final]) s = .next t' ∧ execAll (ds.map absorbCommand ++ [Instr.final]) s = .next u' ∧
      t'.rsp = u'.rsp

/-- R132: the one-shot helper `INIT256`; `ABSORB …`; `FINAL` answers `KECCAK[1](M)` from any state between commands; right
after reset the `INIT256` may be omitted. The second clause starts from State.reset with words offered, and it rests on the
model's choice of the host's side there (log entry 2): `rsp_ready` asserted and `rst` released, which the spec does not
promise right after reset. -/
def Obligations.OneShotHelperHashesTheMessage : Prop :=
  ∀ m : List Byte,
    (∀ s : State, s.Ready → s.rspReady = true → s.cmdIn = (expandHash256 m).map encode →
      ∃ t : State, Host.Core.run Sys2Proof.core (2 * (expandHash256 m).length) s = .next t ∧
        t.rspOut.getLast? = some (responseOf .ok (keccak .d256 m)) ∧ t.FreshAt .d256) ∧
    ∃ t : State, Host.Core.run Sys2Proof.core (2 * ((expandAbsorbs m).length + 1))
        { State.reset with cmdIn := (expandAbsorbs m ++ [Instr.final]).map encode } = .next t ∧
      t.rspOut.getLast? = some (responseOf .ok (keccak .d256 m)) ∧ t.FreshAt .d256

/-- R72, R121, R129: the pseudo-instruction `HASH <d>, <bytes>` answers `KECCAK` of the bytes at size `d`, whatever
message was in progress. -/
def Obligations.HashPseudoInstructionHashesTheMessage : Prop :=
  ∀ (sel : Sel) (m : List Byte) (s : State), s.Ready → s.rspReady = true →
    s.cmdIn = (expandHash sel.dbits m).map encode →
    ∃ t : State, Host.Core.run Sys2Proof.core (2 * (expandHash sel.dbits m).length) s = .next t ∧
      t.rspOut.getLast? = some (responseOf .ok (keccak sel m)) ∧ t.FreshAt sel

/-! ## Invariants -/

/-- The invariant of the states between commands holds after reset (R24, R27, R28, R33, R70). Its clause on the responses
delivered holds because State.reset has delivered none, which is the model's choice (log entry 2). -/
def Obligations.ResetMeetsTheInvariant : Prop := State.reset.Inv

/-- Every step keeps the invariant of the states between commands: `BUFLEN < RATE`, `BUSY = 0`, no command left in
progress, `PHASE = FRESH` only with an empty buffer and zero lanes, well-formed responses (R24, R27, R28, R70). -/
def Obligations.StepKeepsTheInvariant : Prop :=
  ∀ s t : State, s.Inv → step s = .next t → t.Inv

/-- However the host drives its pins and whatever words it offers, reset pulses included, a run never stops and keeps
the invariant (R18, R143, R164). -/
def Obligations.PinDrivenRunsNeverStopAndStaySafe : Prop :=
  ∀ (ps : List Pins) (s : State), s.Inv → ∃ t, runPins ps s = .next t ∧ t.Inv

/-- R27: in every state of the invariant the 8-bit `BUFLEN` is exactly the number of buffered bytes, at most 143. -/
def Obligations.BufLenIsTheNumberOfBufferedBytes : Prop :=
  ∀ s : State, s.Inv → s.bufLen.toNat = s.buf.length ∧ s.bufLen.toNat ≤ s.sel.rate - 1 ∧ s.bufLen.toNat ≤ 143

/-! ## The permutation -/

/-- R92: after `perm_start` exactly 24 engine steps are enabled one after another, `RND` counting 0 to 24, and then the
completion; the lanes are then `KECCAK_F` of the lanes at the start. -/
def Obligations.EngineRunIsThePermutation : Prop :=
  ∀ s : State,
    (∀ k, k ≤ 24 → (engineStep^[k] (engineStart s)).busy = true ∧ (engineStep^[k] (engineStart s)).rnd.val = k) ∧
    engineDone (engineStep^[24] (engineStart s)) = { s with lanes := keccakF s.lanes, rnd := 24, busy := false } ∧
    engineStep (engineStep^[24] (engineStart s)) = engineStep^[24] (engineStart s)

/-- R9, R34, R92: the finer machine, one round a step, refines the atomic command. Between a command's acceptance and its
response lie no further steps, or 25 (24 rounds and the completion), in which no command is accepted and no response is
pending or delivered; then the state is that of the atomic step. `FINAL` always takes the 25, `INIT` and `INIT256`
never (R112, R167). -/
def Obligations.FineRunRefinesTheAtomicCommand : Prop :=
  ∀ (s : State) (w : Word) (rest : List Word) (i : Instr), s.Ready → s.cmdIn = w :: rest → decode w = .ok i →
    ∃ n, (n = 0 ∨ n = 25) ∧ (i = .final → n = 25) ∧ (∀ d, i = .init d → n = 0) ∧ (i = .init256 → n = 0) ∧
      step s = .next (fineRun (n + 1) s) ∧
      ∀ k, 1 ≤ k → k ≤ n → (fineRun k s).cmdReady = false ∧ (fineRun k s).rsp = none ∧
        (fineRun k s).rspOut = s.rspOut ∧ (fineRun k s).cmdIn = rest

/-- Every step of the finer machine keeps its invariant: a state between commands, or one inside a command at its
permutation, with the block complete in the buffer and at most two payload bytes left (R27, R28, R34, R123). -/
def Obligations.FineStepKeepsTheFineInvariant : Prop :=
  ∀ s : State, s.FineInv → (fineStep s).FineInv

/-- R84: PI relocates lane (x,y) to position (y, 2x+3y mod 5), all 25 moves at once. -/
def Obligations.PiRelocatesEveryLane : Prop :=
  ∀ (A : Lanes) (x y : Fin 5), laneAt (pi A) y (2 * x + 3 * y) = laneAt A x y

/-- R13, R83 with the offsets of R104's table (which the spec supplies from general knowledge): bit `k` of lane (x,y)
moves to bit `k + RHO` modulo 64. -/
def Obligations.RhoRotatesByTheOffsetTable : Prop :=
  ∀ (A : Lanes) (x y : Fin 5) (k : Nat), k < 64 →
    let table : Vector (Vector Nat 5) 5 :=
      #v[#v[0, 1, 62, 28, 27], #v[36, 44, 6, 55, 20], #v[3, 10, 43, 25, 39], #v[41, 45, 15, 21, 8], #v[18, 2, 61, 56, 14]]
    (laneAt (rho A) x y).getLsbD ((k + table[y][x]) % 64) = (laneAt A x y).getLsbD k

/-- R87, R89: the round in closed, fused form. With `T = THETA(A)` and `B[x,y]` the rotated lane that PI brings to
(x,y), which comes from (x+3y, x), the round's lane at (x,y) is χ of `B`, with the round constant in lane (0,0). -/
def Obligations.RoundIsItsFusedForm : Prop :=
  ∀ (A : Lanes) (ir : Fin 24) (x y : Fin 5),
    let T := theta A
    let B := fun (x y : Fin 5) => rotl (laneAt T (x + 3 * y) x) (rhoOffset (laneIx (x + 3 * y) x))
    laneAt (keccakRound A ir) x y =
      B x y ^^^ (~~~(B (x + 1) y) &&& B (x + 2) y) ^^^ (if x = 0 ∧ y = 0 then rc ir else 0)

/-- R82: THETA XORs into every lane of column x the parity of column x−1 and the parity of column x+1 rotated by one. -/
def Obligations.ThetaXorsTheColumnParities : Prop :=
  ∀ (A : Lanes) (x y : Fin 5),
    let C := fun x : Fin 5 => laneAt A x 0 ^^^ laneAt A x 1 ^^^ laneAt A x 2 ^^^ laneAt A x 3 ^^^ laneAt A x 4
    laneAt (theta A) x y = laneAt A x y ^^^ (C (x - 1) ^^^ rotl (C (x + 1)) 1)

/-- R90: THETA, RHO and PI are linear over XOR, IOTA is an XOR with a constant, and CHI is not linear. -/
def Obligations.OnlyChiIsNotLinear : Prop :=
  (∀ A B : Lanes, theta (xorLanes A B) = xorLanes (theta A) (theta B)) ∧
  (∀ A B : Lanes, rho (xorLanes A B) = xorLanes (rho A) (rho B)) ∧
  (∀ A B : Lanes, pi (xorLanes A B) = xorLanes (pi A) (pi B)) ∧
  (∀ (A : Lanes) (ir : Fin 24), iota A ir = xorLanes A (iota zeroLanes ir)) ∧
  ∃ A B : Lanes, chi (xorLanes A B) ≠ xorLanes (chi A) (chi B)

/-! ## Bytes, padding, sizes, assembler -/

/-- R12: `LE64` is `Σ b_k · 2^(8k)`; `BYTES(v)` are the lane's bytes, least significant first; byte `k` of `STBYTES(A)` is
byte `k mod 8` of lane `k div 8`; the flat vector holds lane `i` at bits `64i+63:64i`, and byte `k` of `STBYTES(A)` at
bits `8k+7:8k`. -/
def Obligations.BytesAndLanesAreLittleEndian : Prop :=
  (∀ bs : List Byte, bs.length = 8 →
    (le64 bs).toNat = ((List.range 8).map fun k => (bs.getD k 0).toNat * 2 ^ (8 * k)).sum) ∧
  (∀ v : Lane, bytesOf v = [v.extractLsb' 0 8, v.extractLsb' 8 8, v.extractLsb' 16 8, v.extractLsb' 24 8,
    v.extractLsb' 32 8, v.extractLsb' 40 8, v.extractLsb' 48 8, v.extractLsb' 56 8]) ∧
  (∀ A : Lanes, (stBytes A).length = 200) ∧
  (∀ (A : Lanes) (i : Fin 25) (k : Fin 8),
    (stBytes A).getD (8 * i.val + k.val) 0 = (A[i]).extractLsb' (8 * k.val) 8) ∧
  (∀ (A : Lanes) (i : Fin 25), (flatten A).extractLsb' (64 * i.val) 64 = A[i]) ∧
  (∀ (A : Lanes) (k : Nat), k < 200 → (flatten A).extractLsb' (8 * k) 8 = (stBytes A).getD k 0)

/-- R91: on the engine's port, `perm_out = KECCAK_F(perm_in)`, lane `i` at bits `64i+63:64i` of either vector. -/
def Obligations.EnginePortCarriesThePermutation : Prop :=
  (∀ A : Lanes, permOut (flatten A) = flatten (keccakF A)) ∧ (∀ v : BitVec 1600, flatten (unflatten v) = v)

/-- R111: the padding is `81`, or `01 80`, or `01`, zeros and `80`, always `rate − n` bytes. -/
def Obligations.PaddingIsDomainByteZerosAndFinalBit : Prop :=
  ∀ n rate : Nat, n < rate →
    (pad n rate).length = rate - n ∧
    (rate - n = 1 → pad n rate = [0x81]) ∧ (rate - n = 2 → pad n rate = [0x01, 0x80]) ∧
    (3 ≤ rate - n → pad n rate = 0x01 :: (List.replicate (rate - n - 2) 0x00 ++ [0x80]))

/-- R113: XORing the final block into the State is XORing the message bytes into its first `n` bytes, `0x01` into byte
`n` and `0x80` into byte `rate − 1`; both in one byte when they meet, and no other byte changes. -/
def Obligations.PaddingInLaneTerms : Prop :=
  ∀ (sel : Sel) (A : Lanes) (buf : List Byte) (k : Nat), buf.length < sel.rate → k < 200 →
    (stBytes (xorLanes A (blockLanes sel (buf ++ pad buf.length sel.rate)))).getD k 0 =
      (stBytes A).getD k 0 ^^^ buf.getD k 0 ^^^ (if k = buf.length then 0x01 else 0x00) ^^^
        (if k = sel.rate - 1 then 0x80 else 0x00)

/-- R114 (the spec's own reading, from general knowledge): bit by bit, least significant first, the padding is a one, the
fewest zeros, and a final one that is the last bit of the block. -/
def Obligations.PaddingBitsAreOneZerosOne : Prop :=
  ∀ n rate : Nat, n < rate →
    (pad n rate).flatMap (fun b => (List.range 8).map b.getLsbD) =
      true :: (List.replicate (8 * (rate - n) - 2) false ++ [true])

/-- R7, R15: the sizes of the four variants. -/
def Obligations.SizesAreAsTabled : Prop :=
  [Sel.d224, .d256, .d384, .d512].map (fun d => (d.code.toNat, d.dbits, d.rate, d.rlanes, 200 - d.rate, d.dlen)) =
    [(0, 224, 144, 18, 56, 28), (1, 256, 136, 17, 64, 32), (2, 384, 104, 13, 96, 48), (3, 512, 72, 9, 128, 64)] ∧
  ∀ d : Sel, d.rate % 8 = 0 ∧ d.rate < 200 ∧ d.dlen < d.rate ∧ d.rate ≤ Config.bufBytes

/-- R72: `ABSORBS` of `L` bytes is `⌈L/3⌉` well-formed `ABSORB` commands taking the bytes three at a time in order, each
with three bytes but for the last. -/
def Obligations.AbsorbsTakesTheBytesThreeAtATime : Prop :=
  ∀ bs : List Byte,
    expandAbsorbs bs = (groupsOfThree bs).map absorbCommand ∧ (groupsOfThree bs).flatten = bs ∧
    (expandAbsorbs bs).length = (bs.length + 2) / 3 ∧ (∀ i ∈ expandAbsorbs bs, i.wf = true) ∧
    (∀ g ∈ (groupsOfThree bs).dropLast, g.length = 3) ∧
    (∀ g ∈ groupsOfThree bs, payload g.length (g.getD 0 0) (g.getD 1 0) (g.getD 2 0) = g)
end

