-- ==== Sys2Proof/Laws/Decode.lean ====
section
/-! SUPPORT. The fields of an encoded command and of a masked word (30_encoding.md R61, R62). -/

namespace Sys2Proof

/-- The field of a concatenation that lies in its low part. -/
theorem field_bits (w : Word) (lo len k : Nat) (h : k < len) : (field w lo len)[k] = w.getLsbD (lo + k) := by
  simp [field]

/-- The opcode of each command (R62). -/
theorem encode_op (i : Instr) : field (encode i) 28 4 = field i.row.pattern 28 4 := by
  cases i with
  | init d =>
    ext k hk; interval_cases k <;> simp [field, encode, Instr.row]
  | init256 => decide
  | absorb n b0 b1 b2 =>
    ext k hk; interval_cases k <;> simp [field, encode, Instr.row]
  | final => decide

/-- A row that accepts a word fixes its opcode (R62). -/
theorem op_of_accepts {r : OpRow} (hr : r ∈ opTable) {w : Word} (h : r.accepts w = true) :
    field w 28 4 = field r.pattern 28 4 := by
  have hm : field r.mask 28 4 = 15 := (by decide : ∀ r ∈ opTable, field r.mask 28 4 = 15) r hr
  have hp : w &&& r.mask = r.pattern := by simpa [OpRow.accepts] using h
  rw [← hp]
  have hx : field (w &&& r.mask) 28 4 = field w 28 4 &&& field r.mask 28 4 := by
    ext k hk; simp [field]
  rw [hx, hm]
  ext k hk
  interval_cases k <;> simp

/-- The rows of the table have distinct opcodes. -/
theorem row_of_op : ∀ r ∈ opTable, ∀ r' ∈ opTable, field r.pattern 28 4 = field r'.pattern 28 4 → r = r' := by decide

/-- Every command's row is in the table. -/
theorem row_mem (i : Instr) : i.row ∈ opTable := by cases i <;> simp [Instr.row, opTable]

/-- A field as a number: what arithmetic on a word's value needs. -/
theorem field_toNat (w : Word) (lo len : Nat) : (field w lo len).toNat = w.toNat / 2 ^ lo % 2 ^ len := by
  simp [field, Nat.shiftRight_eq_div_pow]

/-- The value of an `INIT` word (R63). -/
theorem encode_init_toNat (d : Nat) : (encode (.init d)).toNat = 0x10000000 + d % 65536 := by
  have h : encode (.init d) = (0x10000000 : Word) + (BitVec.ofNat 16 d).setWidth 32 := by
    rw [encode, BitVec.add_eq_or_of_and_eq_zero]
    ext k hk; interval_cases k <;> simp
  rw [h]; simp; omega

/-- The value of an `ABSORB` word (R65, R71). -/
theorem encode_absorb_toNat (n : Nat) (b0 b1 b2 : Byte) :
    (encode (.absorb n b0 b1 b2)).toNat =
      0x30000000 + (n % 4) * 2 ^ 24 + b2.toNat * 2 ^ 16 + b1.toNat * 2 ^ 8 + b0.toNat := by
  have h : encode (.absorb n b0 b1 b2) = (0x30000000 : Word) + ((BitVec.ofNat 2 n).setWidth 32 <<< 24) +
      b0.setWidth 32 + (b1.setWidth 32 <<< 8) + (b2.setWidth 32 <<< 16) := by
    rw [encode, BitVec.add_eq_or_of_and_eq_zero (0x30000000 : Word),
      BitVec.add_eq_or_of_and_eq_zero _ (b0.setWidth 32), BitVec.add_eq_or_of_and_eq_zero _ (b1.setWidth 32 <<< 8),
      BitVec.add_eq_or_of_and_eq_zero _ (b2.setWidth 32 <<< 16)]
    all_goals (ext k hk; interval_cases k <;> simp)
  have := b0.isLt
  have := b1.isLt
  have := b2.isLt
  rw [h]; simp [Nat.shiftLeft_eq]; omega

end Sys2Proof
end

