-- ==== Sys2Proof/Laws/Lanes.lean ====
section
/-! SUPPORT. Laws of lanes and bytes: indices, tables of lanes, packing, the bytes of the State. -/

namespace Sys2Proof.Machine

@[simp] theorem lanesOf_getElem (f : Fin 25 → Lane) (i : Nat) (h : i < 25) : (lanesOf f)[i] = f ⟨i, h⟩ := by
  simp [lanesOf]

@[simp] theorem lanesOf_getFin (f : Fin 25 → Lane) (i : Fin 25) : (lanesOf f)[i] = f i := by
  simp [lanesOf]

@[simp] theorem zeroLanes_getElem (i : Nat) (h : i < 25) : zeroLanes[i] = 0 := by simp [zeroLanes]

/-- Two States are equal when all their lanes are. -/
theorem lanes_ext {A B : Lanes} (h : ∀ i : Fin 25, A[i] = B[i]) : A = B :=
  Vector.ext fun i hi => h ⟨i, hi⟩

@[simp] theorem xOf_laneIx (x y : Fin 5) : xOf (laneIx x y) = x := by
  ext; simp [xOf, laneIx]

@[simp] theorem yOf_laneIx (x y : Fin 5) : yOf (laneIx x y) = y := by
  ext; simp [yOf, laneIx]; omega

@[simp] theorem laneIx_xOf_yOf (i : Fin 25) : laneIx (xOf i) (yOf i) = i := by
  ext; simp [xOf, yOf, laneIx]; omega

/-- The lane of a table of lanes at `(x,y)`. -/
@[simp] theorem laneAt_lanesOf (f : Fin 25 → Lane) (x y : Fin 5) : laneAt (lanesOf f) x y = f (laneIx x y) := by
  simp [laneAt]

/-- Two States are equal when they agree at all coordinates. -/
theorem lanes_ext_at {A B : Lanes} (h : ∀ x y, laneAt A x y = laneAt B x y) : A = B := by
  refine lanes_ext fun i => ?_
  have := h (xOf i) (yOf i)
  simpa [laneAt] using this

@[simp] theorem xorLanes_getElem (A B : Lanes) (i : Nat) (h : i < 25) : (xorLanes A B)[i] = A[i] ^^^ B[i] := by
  simp [xorLanes]

@[simp] theorem laneAt_xorLanes (A B : Lanes) (x y : Fin 5) : laneAt (xorLanes A B) x y = laneAt A x y ^^^ laneAt B x y := by
  simp [laneAt]

@[simp] theorem packLE_nil (w : Nat) : packLE w [] = 0 := rfl

theorem packLE_cons (w : Nat) (b : Byte) (bs : List Byte) :
    packLE w (b :: bs) = (b.setWidth w ||| (packLE w bs <<< 8)) := rfl

/-- Bit `k` of a packed byte sequence is bit `k mod 8` of byte `k div 8`. -/
theorem packLE_getLsbD (w : Nat) (bs : List Byte) (k : Nat) :
    (packLE w bs).getLsbD k = (decide (k < w) && (bs.getD (k / 8) 0).getLsbD (k % 8)) := by
  induction bs generalizing k with
  | nil => simp
  | cons b bs ih =>
    rw [packLE_cons, BitVec.getLsbD_or, BitVec.getLsbD_setWidth, BitVec.getLsbD_shiftLeft, ih]
    by_cases hk : k < 8
    · have h1 : k / 8 = 0 := by omega
      have h2 : k % 8 = k := by omega
      simp [hk, h1, h2]
    · have h1 : k / 8 = (k - 8) / 8 + 1 := by omega
      have h2 : (k - 8) % 8 = k % 8 := by omega
      have h3 : b.getLsbD k = false := BitVec.getLsbD_of_ge b k (by omega)
      by_cases hw : k < w
      · have hw' : k - 8 < w := by omega
        simp [hk, h1, h2, h3, hw, hw']
      · simp [hw, h3]

/-- Byte `j` of a packed byte sequence is the sequence's byte `j`. -/
theorem packLE_byte (w : Nat) (bs : List Byte) (j : Nat) (h : 8 * j + 8 ≤ w) :
    (packLE w bs).extractLsb' (8 * j) 8 = bs.getD j 0 := by
  ext k hk
  have h1 : (8 * j + k) / 8 = j := by omega
  have h2 : (8 * j + k) % 8 = k := by omega
  have h3 : 8 * j + k < w := by omega
  rw [BitVec.getElem_extractLsb', packLE_getLsbD, h1, h2]
  simp [h3, BitVec.getLsbD_eq_getElem hk]

@[simp] theorem bytesOf_length (v : Lane) : (bytesOf v).length = 8 := by simp [bytesOf]

/-- Byte `k` of a lane's bytes. -/
theorem bytesOf_getD (v : Lane) (k : Nat) (h : k < 8) : (bytesOf v).getD k 0 = laneByte v k := by
  simp [bytesOf, h]

/-- Reading the bytes of a list of lanes: byte `k` is byte `k mod 8` of lane `k div 8`. -/
theorem flatMap_bytesOf_getD (vs : List Lane) (k : Nat) (h : k < 8 * vs.length) :
    (vs.flatMap bytesOf).getD k 0 = laneByte (vs.getD (k / 8) 0) (k % 8) := by
  induction vs generalizing k with
  | nil => simp at h
  | cons v vs ih =>
    rw [List.flatMap_cons]
    by_cases hk : k < 8
    · have h1 : k / 8 = 0 := by omega
      have h2 : k % 8 = k := by omega
      rw [List.getD_append _ _ _ _ (by simpa using hk), bytesOf_getD v k hk, h1, h2]
      rfl
    · have h1 : k / 8 = (k - 8) / 8 + 1 := by omega
      have h2 : (k - 8) % 8 = k % 8 := by omega
      rw [List.getD_append_right _ _ _ _ (by simp; omega), bytesOf_length, ih (k - 8) (by simp at h; omega), h1, h2]
      rfl

@[simp] theorem stBytes_length (A : Lanes) : (stBytes A).length = 200 := by
  simp [stBytes, List.length_flatMap]

/-- Byte `k` of the State (R12). -/
theorem stBytes_getD (A : Lanes) (k : Nat) (h : k < 200) :
    (stBytes A).getD k 0 = laneByte (A[k / 8]'(by omega)) (k % 8) := by
  have h8 : k / 8 < 25 := by omega
  rw [stBytes, flatMap_bytesOf_getD _ _ (by simpa using h)]
  simp [h8]

end Sys2Proof.Machine
end

