-- ==== Sys2Proof/Laws/Engine.lean ====
section
/-! SUPPORT. One law per step mapping: the lane at `(x,y)` of its result (40_permutation_engine.md R82 to R88). -/

namespace Sys2Proof.Machine

theorem columnParity_getElem (A : Lanes) (x : Nat) (h : x < 5) :
    (columnParity A)[x] = laneAt A ⟨x, h⟩ 0 ^^^ laneAt A ⟨x, h⟩ 1 ^^^ laneAt A ⟨x, h⟩ 2 ^^^ laneAt A ⟨x, h⟩ 3 ^^^ laneAt A ⟨x, h⟩ 4 := by
  simp [columnParity]

/-- θ at `(x,y)` (R82). -/
theorem theta_at (A : Lanes) (x y : Fin 5) :
    laneAt (theta A) x y = laneAt A x y ^^^ ((columnParity A)[x + 4] ^^^ rotl (columnParity A)[x + 1] 1) := by
  simp [theta, laneAt, thetaEffect]

/-- ρ at `(x,y)` (R83). -/
theorem rho_at (A : Lanes) (x y : Fin 5) : laneAt (rho A) x y = rotl (laneAt A x y) (rhoOffset (laneIx x y)) := by
  simp [rho, laneAt]

/-- χ at `(x,y)` (R85). -/
theorem chi_at (A : Lanes) (x y : Fin 5) :
    laneAt (chi A) x y = laneAt A x y ^^^ (~~~(laneAt A (x + 1) y) &&& laneAt A (x + 2) y) := by
  simp [chi, laneAt]

/-- ι at lane `i` (R86). -/
theorem iota_getElem (A : Lanes) (ir : Fin 24) (i : Nat) (h : i < 25) :
    (iota A ir)[i] = if i = 0 then A[i] ^^^ rc ir else A[i] := by
  have h0 : ((⟨i, h⟩ : Fin 25) = 0) ↔ i = 0 := by rw [Fin.ext_iff]; rfl
  simp only [iota, lanesOf_getElem, h0, Fin.getElem_fin]

/-- Rotation is linear over XOR. -/
theorem rotl_xor (a b : Lane) (n : Nat) : rotl (a ^^^ b) n = rotl a n ^^^ rotl b n := by
  ext k hk
  simp only [rotl, BitVec.getElem_rotateLeft, BitVec.getElem_xor]
  split <;> simp

/-- The first `n` rounds of the permutation. -/
def roundsUpTo (A : Lanes) (n : Nat) : Lanes := ((List.finRange 24).take n).foldl keccakRound A

@[simp] theorem roundsUpTo_zero (A : Lanes) : roundsUpTo A 0 = A := rfl

/-- One more round (R88: the rounds in ascending order). -/
theorem roundsUpTo_succ (A : Lanes) (n : Nat) (h : n < 24) :
    roundsUpTo A (n + 1) = keccakRound (roundsUpTo A n) ⟨n, h⟩ := by
  have hl : n < (List.finRange 24).length := by simpa using h
  simp only [roundsUpTo]
  rw [List.take_succ_eq_append_getElem hl, List.foldl_append]
  simp

/-- All 24 rounds are `KECCAK_F` (R88). -/
theorem roundsUpTo_all (A : Lanes) : roundsUpTo A 24 = keccakF A := by
  have h : (List.finRange 24).take 24 = List.finRange 24 := List.take_of_length_le (by simp)
  rw [roundsUpTo, h, keccakF]

end Sys2Proof.Machine
end

