-- ==== Sys2Proof/Laws/State.lean ====
section
/-! SUPPORT. One lemma per field per update of State, (true by rfl once its operation is
unfolded): no later proof unfolds a record update. -/

namespace Sys2Proof.Machine

@[simp] theorem xorBlock_buf (s : State) : (xorBlock s).buf = s.buf := by unfold xorBlock; rfl
@[simp] theorem xorBlock_sel (s : State) : (xorBlock s).sel = s.sel := by unfold xorBlock; rfl
@[simp] theorem xorBlock_phase (s : State) : (xorBlock s).phase = s.phase := by unfold xorBlock; rfl
@[simp] theorem xorBlock_rnd (s : State) : (xorBlock s).rnd = s.rnd := by unfold xorBlock; rfl
@[simp] theorem xorBlock_busy (s : State) : (xorBlock s).busy = s.busy := by unfold xorBlock; rfl
@[simp] theorem xorBlock_work (s : State) : (xorBlock s).work = s.work := by unfold xorBlock; rfl
@[simp] theorem xorBlock_rsp (s : State) : (xorBlock s).rsp = s.rsp := by unfold xorBlock; rfl
@[simp] theorem xorBlock_rst (s : State) : (xorBlock s).rst = s.rst := by unfold xorBlock; rfl
@[simp] theorem xorBlock_cmdIn (s : State) : (xorBlock s).cmdIn = s.cmdIn := by unfold xorBlock; rfl
@[simp] theorem xorBlock_rspReady (s : State) : (xorBlock s).rspReady = s.rspReady := by unfold xorBlock; rfl
@[simp] theorem xorBlock_rspOut (s : State) : (xorBlock s).rspOut = s.rspOut := by unfold xorBlock; rfl

@[simp] theorem respond_lanes (st : Status) (bs : List Byte) (s : State) : (respond st bs s).lanes = s.lanes := rfl
@[simp] theorem respond_buf (st : Status) (bs : List Byte) (s : State) : (respond st bs s).buf = s.buf := rfl
@[simp] theorem respond_sel (st : Status) (bs : List Byte) (s : State) : (respond st bs s).sel = s.sel := rfl
@[simp] theorem respond_phase (st : Status) (bs : List Byte) (s : State) : (respond st bs s).phase = s.phase := rfl
@[simp] theorem respond_rnd (st : Status) (bs : List Byte) (s : State) : (respond st bs s).rnd = s.rnd := rfl
@[simp] theorem respond_busy (st : Status) (bs : List Byte) (s : State) : (respond st bs s).busy = s.busy := rfl
@[simp] theorem respond_work (st : Status) (bs : List Byte) (s : State) : (respond st bs s).work = s.work := rfl
@[simp] theorem respond_rsp (st : Status) (bs : List Byte) (s : State) : (respond st bs s).rsp = some (responseOf st bs) := rfl
@[simp] theorem respond_rst (st : Status) (bs : List Byte) (s : State) : (respond st bs s).rst = s.rst := rfl
@[simp] theorem respond_cmdIn (st : Status) (bs : List Byte) (s : State) : (respond st bs s).cmdIn = s.cmdIn := rfl
@[simp] theorem respond_rspReady (st : Status) (bs : List Byte) (s : State) : (respond st bs s).rspReady = s.rspReady := rfl
@[simp] theorem respond_rspOut (st : Status) (bs : List Byte) (s : State) : (respond st bs s).rspOut = s.rspOut := rfl

@[simp] theorem raiseError_lanes (st : Status) (s : State) : (raiseError st s).lanes = s.lanes := rfl
@[simp] theorem raiseError_buf (st : Status) (s : State) : (raiseError st s).buf = s.buf := rfl
@[simp] theorem raiseError_sel (st : Status) (s : State) : (raiseError st s).sel = s.sel := rfl
@[simp] theorem raiseError_phase (st : Status) (s : State) : (raiseError st s).phase = s.phase := rfl
@[simp] theorem raiseError_rnd (st : Status) (s : State) : (raiseError st s).rnd = s.rnd := rfl
@[simp] theorem raiseError_busy (st : Status) (s : State) : (raiseError st s).busy = s.busy := rfl
@[simp] theorem raiseError_work (st : Status) (s : State) : (raiseError st s).work = s.work := rfl
@[simp] theorem raiseError_rsp (st : Status) (s : State) : (raiseError st s).rsp = some (responseOf st []) := rfl
@[simp] theorem raiseError_rst (st : Status) (s : State) : (raiseError st s).rst = s.rst := rfl
@[simp] theorem raiseError_cmdIn (st : Status) (s : State) : (raiseError st s).cmdIn = s.cmdIn := rfl
@[simp] theorem raiseError_rspReady (st : Status) (s : State) : (raiseError st s).rspReady = s.rspReady := rfl
@[simp] theorem raiseError_rspOut (st : Status) (s : State) : (raiseError st s).rspOut = s.rspOut := rfl

@[simp] theorem raiseIllegalCommand_lanes (s : State) : (raiseIllegalCommand s).lanes = s.lanes := rfl
@[simp] theorem raiseIllegalCommand_buf (s : State) : (raiseIllegalCommand s).buf = s.buf := rfl
@[simp] theorem raiseIllegalCommand_sel (s : State) : (raiseIllegalCommand s).sel = s.sel := rfl
@[simp] theorem raiseIllegalCommand_phase (s : State) : (raiseIllegalCommand s).phase = s.phase := rfl
@[simp] theorem raiseIllegalCommand_rnd (s : State) : (raiseIllegalCommand s).rnd = s.rnd := rfl
@[simp] theorem raiseIllegalCommand_busy (s : State) : (raiseIllegalCommand s).busy = s.busy := rfl
@[simp] theorem raiseIllegalCommand_work (s : State) : (raiseIllegalCommand s).work = s.work := rfl
@[simp] theorem raiseIllegalCommand_rsp (s : State) : (raiseIllegalCommand s).rsp = some (responseOf .illegalCommand []) := rfl
@[simp] theorem raiseIllegalCommand_rst (s : State) : (raiseIllegalCommand s).rst = s.rst := rfl
@[simp] theorem raiseIllegalCommand_cmdIn (s : State) : (raiseIllegalCommand s).cmdIn = s.cmdIn := rfl
@[simp] theorem raiseIllegalCommand_rspReady (s : State) : (raiseIllegalCommand s).rspReady = s.rspReady := rfl
@[simp] theorem raiseIllegalCommand_rspOut (s : State) : (raiseIllegalCommand s).rspOut = s.rspOut := rfl

@[simp] theorem clearTo_lanes (d : Sel) (s : State) : (clearTo d s).lanes = zeroLanes := rfl
@[simp] theorem clearTo_buf (d : Sel) (s : State) : (clearTo d s).buf = [] := rfl
@[simp] theorem clearTo_sel (d : Sel) (s : State) : (clearTo d s).sel = d := rfl
@[simp] theorem clearTo_phase (d : Sel) (s : State) : (clearTo d s).phase = .fresh := rfl
@[simp] theorem clearTo_rnd (d : Sel) (s : State) : (clearTo d s).rnd = s.rnd := rfl
@[simp] theorem clearTo_busy (d : Sel) (s : State) : (clearTo d s).busy = s.busy := rfl
@[simp] theorem clearTo_work (d : Sel) (s : State) : (clearTo d s).work = s.work := rfl
@[simp] theorem clearTo_rsp (d : Sel) (s : State) : (clearTo d s).rsp = s.rsp := rfl
@[simp] theorem clearTo_rst (d : Sel) (s : State) : (clearTo d s).rst = s.rst := rfl
@[simp] theorem clearTo_cmdIn (d : Sel) (s : State) : (clearTo d s).cmdIn = s.cmdIn := rfl
@[simp] theorem clearTo_rspReady (d : Sel) (s : State) : (clearTo d s).rspReady = s.rspReady := rfl
@[simp] theorem clearTo_rspOut (d : Sel) (s : State) : (clearTo d s).rspOut = s.rspOut := rfl

@[simp] theorem bufAppend_lanes (bs : List Byte) (s : State) : (bufAppend bs s).lanes = s.lanes := rfl
@[simp] theorem bufAppend_buf (bs : List Byte) (s : State) : (bufAppend bs s).buf = s.buf ++ bs := rfl
@[simp] theorem bufAppend_sel (bs : List Byte) (s : State) : (bufAppend bs s).sel = s.sel := rfl
@[simp] theorem bufAppend_phase (bs : List Byte) (s : State) : (bufAppend bs s).phase = s.phase := rfl
@[simp] theorem bufAppend_rnd (bs : List Byte) (s : State) : (bufAppend bs s).rnd = s.rnd := rfl
@[simp] theorem bufAppend_busy (bs : List Byte) (s : State) : (bufAppend bs s).busy = s.busy := rfl
@[simp] theorem bufAppend_work (bs : List Byte) (s : State) : (bufAppend bs s).work = s.work := rfl
@[simp] theorem bufAppend_rsp (bs : List Byte) (s : State) : (bufAppend bs s).rsp = s.rsp := rfl
@[simp] theorem bufAppend_rst (bs : List Byte) (s : State) : (bufAppend bs s).rst = s.rst := rfl
@[simp] theorem bufAppend_cmdIn (bs : List Byte) (s : State) : (bufAppend bs s).cmdIn = s.cmdIn := rfl
@[simp] theorem bufAppend_rspReady (bs : List Byte) (s : State) : (bufAppend bs s).rspReady = s.rspReady := rfl
@[simp] theorem bufAppend_rspOut (bs : List Byte) (s : State) : (bufAppend bs s).rspOut = s.rspOut := rfl

@[simp] theorem permute_lanes (s : State) : (permute s).lanes = keccakF s.lanes := by unfold permute; rfl
@[simp] theorem permute_buf (s : State) : (permute s).buf = s.buf := by unfold permute; rfl
@[simp] theorem permute_sel (s : State) : (permute s).sel = s.sel := by unfold permute; rfl
@[simp] theorem permute_phase (s : State) : (permute s).phase = s.phase := by unfold permute; rfl
@[simp] theorem permute_rnd (s : State) : (permute s).rnd = 24 := by unfold permute; rfl
@[simp] theorem permute_busy (s : State) : (permute s).busy = false := by unfold permute; rfl
@[simp] theorem permute_work (s : State) : (permute s).work = s.work := by unfold permute; rfl
@[simp] theorem permute_rsp (s : State) : (permute s).rsp = s.rsp := by unfold permute; rfl
@[simp] theorem permute_rst (s : State) : (permute s).rst = s.rst := by unfold permute; rfl
@[simp] theorem permute_cmdIn (s : State) : (permute s).cmdIn = s.cmdIn := by unfold permute; rfl
@[simp] theorem permute_rspReady (s : State) : (permute s).rspReady = s.rspReady := by unfold permute; rfl
@[simp] theorem permute_rspOut (s : State) : (permute s).rspOut = s.rspOut := by unfold permute; rfl

@[simp] theorem bufClear_lanes (s : State) : (bufClear s).lanes = s.lanes := rfl
@[simp] theorem bufClear_buf (s : State) : (bufClear s).buf = [] := rfl
@[simp] theorem bufClear_sel (s : State) : (bufClear s).sel = s.sel := rfl
@[simp] theorem bufClear_phase (s : State) : (bufClear s).phase = s.phase := rfl
@[simp] theorem bufClear_rnd (s : State) : (bufClear s).rnd = s.rnd := rfl
@[simp] theorem bufClear_busy (s : State) : (bufClear s).busy = s.busy := rfl
@[simp] theorem bufClear_work (s : State) : (bufClear s).work = s.work := rfl
@[simp] theorem bufClear_rsp (s : State) : (bufClear s).rsp = s.rsp := rfl
@[simp] theorem bufClear_rst (s : State) : (bufClear s).rst = s.rst := rfl
@[simp] theorem bufClear_cmdIn (s : State) : (bufClear s).cmdIn = s.cmdIn := rfl
@[simp] theorem bufClear_rspReady (s : State) : (bufClear s).rspReady = s.rspReady := rfl
@[simp] theorem bufClear_rspOut (s : State) : (bufClear s).rspOut = s.rspOut := rfl

@[simp] theorem padBuffer_lanes (s : State) : (padBuffer s).lanes = s.lanes := rfl
@[simp] theorem padBuffer_buf (s : State) : (padBuffer s).buf = s.buf ++ pad s.buf.length s.sel.rate := rfl
@[simp] theorem padBuffer_sel (s : State) : (padBuffer s).sel = s.sel := rfl
@[simp] theorem padBuffer_phase (s : State) : (padBuffer s).phase = s.phase := rfl
@[simp] theorem padBuffer_rnd (s : State) : (padBuffer s).rnd = s.rnd := rfl
@[simp] theorem padBuffer_busy (s : State) : (padBuffer s).busy = s.busy := rfl
@[simp] theorem padBuffer_work (s : State) : (padBuffer s).work = s.work := rfl
@[simp] theorem padBuffer_rsp (s : State) : (padBuffer s).rsp = s.rsp := rfl
@[simp] theorem padBuffer_rst (s : State) : (padBuffer s).rst = s.rst := rfl
@[simp] theorem padBuffer_cmdIn (s : State) : (padBuffer s).cmdIn = s.cmdIn := rfl
@[simp] theorem padBuffer_rspReady (s : State) : (padBuffer s).rspReady = s.rspReady := rfl
@[simp] theorem padBuffer_rspOut (s : State) : (padBuffer s).rspOut = s.rspOut := rfl

@[simp] theorem finishAbsorb_lanes (s : State) : (finishAbsorb s).lanes = s.lanes := rfl
@[simp] theorem finishAbsorb_buf (s : State) : (finishAbsorb s).buf = s.buf := rfl
@[simp] theorem finishAbsorb_sel (s : State) : (finishAbsorb s).sel = s.sel := rfl
@[simp] theorem finishAbsorb_phase (s : State) : (finishAbsorb s).phase = .absorbing := rfl
@[simp] theorem finishAbsorb_rnd (s : State) : (finishAbsorb s).rnd = s.rnd := rfl
@[simp] theorem finishAbsorb_busy (s : State) : (finishAbsorb s).busy = s.busy := rfl
@[simp] theorem finishAbsorb_work (s : State) : (finishAbsorb s).work = s.work := rfl
@[simp] theorem finishAbsorb_rsp (s : State) : (finishAbsorb s).rsp = some (responseOf .ok []) := rfl
@[simp] theorem finishAbsorb_rst (s : State) : (finishAbsorb s).rst = s.rst := rfl
@[simp] theorem finishAbsorb_cmdIn (s : State) : (finishAbsorb s).cmdIn = s.cmdIn := rfl
@[simp] theorem finishAbsorb_rspReady (s : State) : (finishAbsorb s).rspReady = s.rspReady := rfl
@[simp] theorem finishAbsorb_rspOut (s : State) : (finishAbsorb s).rspOut = s.rspOut := rfl

@[simp] theorem finishFinal_lanes (s : State) : (finishFinal s).lanes = zeroLanes := rfl
@[simp] theorem finishFinal_buf (s : State) : (finishFinal s).buf = [] := rfl
@[simp] theorem finishFinal_sel (s : State) : (finishFinal s).sel = s.sel := rfl
@[simp] theorem finishFinal_phase (s : State) : (finishFinal s).phase = .fresh := rfl
@[simp] theorem finishFinal_rnd (s : State) : (finishFinal s).rnd = s.rnd := rfl
@[simp] theorem finishFinal_busy (s : State) : (finishFinal s).busy = s.busy := rfl
@[simp] theorem finishFinal_work (s : State) : (finishFinal s).work = s.work := rfl
@[simp] theorem finishFinal_rsp (s : State) : (finishFinal s).rsp = some (responseOf .ok (squeeze s)) := rfl
@[simp] theorem finishFinal_rst (s : State) : (finishFinal s).rst = s.rst := rfl
@[simp] theorem finishFinal_cmdIn (s : State) : (finishFinal s).cmdIn = s.cmdIn := rfl
@[simp] theorem finishFinal_rspReady (s : State) : (finishFinal s).rspReady = s.rspReady := rfl
@[simp] theorem finishFinal_rspOut (s : State) : (finishFinal s).rspOut = s.rspOut := rfl

@[simp] theorem absorbBlock_lanes (s : State) : (absorbBlock s).lanes = keccakF (xorBlock s).lanes := by simp [absorbBlock]
@[simp] theorem absorbBlock_buf (s : State) : (absorbBlock s).buf = [] := by simp [absorbBlock]
@[simp] theorem absorbBlock_sel (s : State) : (absorbBlock s).sel = s.sel := by simp [absorbBlock]
@[simp] theorem absorbBlock_phase (s : State) : (absorbBlock s).phase = s.phase := by simp [absorbBlock]
@[simp] theorem absorbBlock_rnd (s : State) : (absorbBlock s).rnd = 24 := by simp [absorbBlock]
@[simp] theorem absorbBlock_busy (s : State) : (absorbBlock s).busy = false := by simp [absorbBlock]
@[simp] theorem absorbBlock_work (s : State) : (absorbBlock s).work = s.work := by simp [absorbBlock]
@[simp] theorem absorbBlock_rsp (s : State) : (absorbBlock s).rsp = s.rsp := by simp [absorbBlock]
@[simp] theorem absorbBlock_rst (s : State) : (absorbBlock s).rst = s.rst := by simp [absorbBlock]
@[simp] theorem absorbBlock_cmdIn (s : State) : (absorbBlock s).cmdIn = s.cmdIn := by simp [absorbBlock]
@[simp] theorem absorbBlock_rspReady (s : State) : (absorbBlock s).rspReady = s.rspReady := by simp [absorbBlock]
@[simp] theorem absorbBlock_rspOut (s : State) : (absorbBlock s).rspOut = s.rspOut := by simp [absorbBlock]

@[simp] theorem hardReset_lanes (s : State) : (hardReset s).lanes = zeroLanes := rfl
@[simp] theorem hardReset_buf (s : State) : (hardReset s).buf = [] := rfl
@[simp] theorem hardReset_sel (s : State) : (hardReset s).sel = .d256 := rfl
@[simp] theorem hardReset_phase (s : State) : (hardReset s).phase = .fresh := rfl
@[simp] theorem hardReset_rnd (s : State) : (hardReset s).rnd = 0 := rfl
@[simp] theorem hardReset_busy (s : State) : (hardReset s).busy = false := rfl
@[simp] theorem hardReset_work (s : State) : (hardReset s).work = none := rfl
@[simp] theorem hardReset_rsp (s : State) : (hardReset s).rsp = none := rfl
@[simp] theorem hardReset_rst (s : State) : (hardReset s).rst = s.rst := rfl
@[simp] theorem hardReset_cmdIn (s : State) : (hardReset s).cmdIn = s.cmdIn := rfl
@[simp] theorem hardReset_rspReady (s : State) : (hardReset s).rspReady = s.rspReady := rfl
@[simp] theorem hardReset_rspOut (s : State) : (hardReset s).rspOut = s.rspOut := rfl

@[simp] theorem deliver_lanes (r : Response) (s : State) : (deliver r s).lanes = s.lanes := rfl
@[simp] theorem deliver_buf (r : Response) (s : State) : (deliver r s).buf = s.buf := rfl
@[simp] theorem deliver_sel (r : Response) (s : State) : (deliver r s).sel = s.sel := rfl
@[simp] theorem deliver_phase (r : Response) (s : State) : (deliver r s).phase = s.phase := rfl
@[simp] theorem deliver_rnd (r : Response) (s : State) : (deliver r s).rnd = s.rnd := rfl
@[simp] theorem deliver_busy (r : Response) (s : State) : (deliver r s).busy = s.busy := rfl
@[simp] theorem deliver_work (r : Response) (s : State) : (deliver r s).work = s.work := rfl
@[simp] theorem deliver_rsp (r : Response) (s : State) : (deliver r s).rsp = none := rfl
@[simp] theorem deliver_rst (r : Response) (s : State) : (deliver r s).rst = s.rst := rfl
@[simp] theorem deliver_cmdIn (r : Response) (s : State) : (deliver r s).cmdIn = s.cmdIn := rfl
@[simp] theorem deliver_rspReady (r : Response) (s : State) : (deliver r s).rspReady = s.rspReady := rfl
@[simp] theorem deliver_rspOut (r : Response) (s : State) : (deliver r s).rspOut = s.rspOut ++ [r] := rfl

@[simp] theorem takeWord_lanes (ws : List Word) (s : State) : (takeWord ws s).lanes = s.lanes := rfl
@[simp] theorem takeWord_buf (ws : List Word) (s : State) : (takeWord ws s).buf = s.buf := rfl
@[simp] theorem takeWord_sel (ws : List Word) (s : State) : (takeWord ws s).sel = s.sel := rfl
@[simp] theorem takeWord_phase (ws : List Word) (s : State) : (takeWord ws s).phase = s.phase := rfl
@[simp] theorem takeWord_rnd (ws : List Word) (s : State) : (takeWord ws s).rnd = s.rnd := rfl
@[simp] theorem takeWord_busy (ws : List Word) (s : State) : (takeWord ws s).busy = s.busy := rfl
@[simp] theorem takeWord_work (ws : List Word) (s : State) : (takeWord ws s).work = s.work := rfl
@[simp] theorem takeWord_rsp (ws : List Word) (s : State) : (takeWord ws s).rsp = s.rsp := rfl
@[simp] theorem takeWord_rst (ws : List Word) (s : State) : (takeWord ws s).rst = s.rst := rfl
@[simp] theorem takeWord_cmdIn (ws : List Word) (s : State) : (takeWord ws s).cmdIn = ws := rfl
@[simp] theorem takeWord_rspReady (ws : List Word) (s : State) : (takeWord ws s).rspReady = s.rspReady := rfl
@[simp] theorem takeWord_rspOut (ws : List Word) (s : State) : (takeWord ws s).rspOut = s.rspOut := rfl

@[simp] theorem offerNext_lanes (w : Word) (s : State) : (offerNext w s).lanes = s.lanes := rfl
@[simp] theorem offerNext_buf (w : Word) (s : State) : (offerNext w s).buf = s.buf := rfl
@[simp] theorem offerNext_sel (w : Word) (s : State) : (offerNext w s).sel = s.sel := rfl
@[simp] theorem offerNext_phase (w : Word) (s : State) : (offerNext w s).phase = s.phase := rfl
@[simp] theorem offerNext_rnd (w : Word) (s : State) : (offerNext w s).rnd = s.rnd := rfl
@[simp] theorem offerNext_busy (w : Word) (s : State) : (offerNext w s).busy = false := rfl
@[simp] theorem offerNext_work (w : Word) (s : State) : (offerNext w s).work = none := rfl
@[simp] theorem offerNext_rsp (w : Word) (s : State) : (offerNext w s).rsp = none := rfl
@[simp] theorem offerNext_rst (w : Word) (s : State) : (offerNext w s).rst = false := rfl
@[simp] theorem offerNext_cmdIn (w : Word) (s : State) : (offerNext w s).cmdIn = w :: s.cmdIn := rfl
@[simp] theorem offerNext_rspReady (w : Word) (s : State) : (offerNext w s).rspReady = s.rspReady := rfl
@[simp] theorem offerNext_rspOut (w : Word) (s : State) : (offerNext w s).rspOut = s.rspOut := rfl

@[simp] theorem engineStart_lanes (s : State) : (engineStart s).lanes = s.lanes := rfl
@[simp] theorem engineStart_buf (s : State) : (engineStart s).buf = s.buf := rfl
@[simp] theorem engineStart_sel (s : State) : (engineStart s).sel = s.sel := rfl
@[simp] theorem engineStart_phase (s : State) : (engineStart s).phase = s.phase := rfl
@[simp] theorem engineStart_rnd (s : State) : (engineStart s).rnd = 0 := rfl
@[simp] theorem engineStart_busy (s : State) : (engineStart s).busy = true := rfl
@[simp] theorem engineStart_work (s : State) : (engineStart s).work = s.work := rfl
@[simp] theorem engineStart_rsp (s : State) : (engineStart s).rsp = s.rsp := rfl
@[simp] theorem engineStart_rst (s : State) : (engineStart s).rst = s.rst := rfl
@[simp] theorem engineStart_cmdIn (s : State) : (engineStart s).cmdIn = s.cmdIn := rfl
@[simp] theorem engineStart_rspReady (s : State) : (engineStart s).rspReady = s.rspReady := rfl
@[simp] theorem engineStart_rspOut (s : State) : (engineStart s).rspOut = s.rspOut := rfl

@[simp] theorem engineDone_lanes (s : State) : (engineDone s).lanes = s.lanes := rfl
@[simp] theorem engineDone_buf (s : State) : (engineDone s).buf = s.buf := rfl
@[simp] theorem engineDone_sel (s : State) : (engineDone s).sel = s.sel := rfl
@[simp] theorem engineDone_phase (s : State) : (engineDone s).phase = s.phase := rfl
@[simp] theorem engineDone_rnd (s : State) : (engineDone s).rnd = s.rnd := rfl
@[simp] theorem engineDone_busy (s : State) : (engineDone s).busy = false := rfl
@[simp] theorem engineDone_work (s : State) : (engineDone s).work = s.work := rfl
@[simp] theorem engineDone_rsp (s : State) : (engineDone s).rsp = s.rsp := rfl
@[simp] theorem engineDone_rst (s : State) : (engineDone s).rst = s.rst := rfl
@[simp] theorem engineDone_cmdIn (s : State) : (engineDone s).cmdIn = s.cmdIn := rfl
@[simp] theorem engineDone_rspReady (s : State) : (engineDone s).rspReady = s.rspReady := rfl
@[simp] theorem engineDone_rspOut (s : State) : (engineDone s).rspOut = s.rspOut := rfl

@[simp] theorem beginBlock_lanes (w : Work) (s : State) : (beginBlock w s).lanes = (xorBlock s).lanes := by simp [beginBlock]
@[simp] theorem beginBlock_buf (w : Work) (s : State) : (beginBlock w s).buf = s.buf := by simp [beginBlock]
@[simp] theorem beginBlock_sel (w : Work) (s : State) : (beginBlock w s).sel = s.sel := by simp [beginBlock]
@[simp] theorem beginBlock_phase (w : Work) (s : State) : (beginBlock w s).phase = s.phase := by simp [beginBlock]
@[simp] theorem beginBlock_rnd (w : Work) (s : State) : (beginBlock w s).rnd = 0 := by simp [beginBlock]
@[simp] theorem beginBlock_busy (w : Work) (s : State) : (beginBlock w s).busy = true := by simp [beginBlock]
@[simp] theorem beginBlock_work (w : Work) (s : State) : (beginBlock w s).work = some w := by simp [beginBlock]
@[simp] theorem beginBlock_rsp (w : Work) (s : State) : (beginBlock w s).rsp = s.rsp := by simp [beginBlock]
@[simp] theorem beginBlock_rst (w : Work) (s : State) : (beginBlock w s).rst = s.rst := by simp [beginBlock]
@[simp] theorem beginBlock_cmdIn (w : Work) (s : State) : (beginBlock w s).cmdIn = s.cmdIn := by simp [beginBlock]
@[simp] theorem beginBlock_rspReady (w : Work) (s : State) : (beginBlock w s).rspReady = s.rspReady := by simp [beginBlock]
@[simp] theorem beginBlock_rspOut (w : Work) (s : State) : (beginBlock w s).rspOut = s.rspOut := by simp [beginBlock]


/-- The XOR of `ABSORB_BLOCK` reads the lanes, the buffer and the size alone. -/
theorem xorBlock_lanes_congr (s t : State) (hl : s.lanes = t.lanes) (hb : s.buf = t.buf) (hs : s.sel = t.sel) :
    (xorBlock s).lanes = (xorBlock t).lanes := by
  simp only [xorBlock, memReadBuf, hl, hb, hs]

/-- An engine step writes the lanes and `RND` alone. -/
theorem engineStep_frame (s : State) :
    engineStep s = { s with lanes := (engineStep s).lanes, rnd := (engineStep s).rnd } := by
  unfold engineStep
  split
  · split <;> rfl
  · rfl

end Sys2Proof.Machine
end

