-- ==== Sys2Proof/Laws/Ops.lean ====
section
/-! SUPPORT. What the shared operations can do: sizes, payloads, padding, the per-byte step, ABSORB_BLOCK
(00_scope.md R15; 42_padding_rule.md R110; 43_sponge_commands.md R123, R124). -/

namespace Sys2Proof.Machine

@[simp] theorem rate_d224 : Sel.rate .d224 = 144 := rfl
@[simp] theorem rate_d256 : Sel.rate .d256 = 136 := rfl
@[simp] theorem rate_d384 : Sel.rate .d384 = 104 := rfl
@[simp] theorem rate_d512 : Sel.rate .d512 = 72 := rfl
@[simp] theorem dlen_d224 : Sel.dlen .d224 = 28 := rfl
@[simp] theorem dlen_d256 : Sel.dlen .d256 = 32 := rfl
@[simp] theorem dlen_d384 : Sel.dlen .d384 = 48 := rfl
@[simp] theorem dlen_d512 : Sel.dlen .d512 = 64 := rfl

/-- Every rate is at least 72 bytes, fits the buffer, and is a whole number of lanes of the State (R7). -/
theorem rate_bounds (d : Sel) : 72 ≤ d.rate ∧ d.rate ≤ Config.bufBytes ∧ d.rate = 8 * d.rlanes ∧ d.rlanes ≤ 18 := by
  cases d <;> decide

/-- The digest lies within the rate portion (R7, R128). -/
theorem dlen_lt_rate (d : Sel) : d.dlen < d.rate := by cases d <;> decide

theorem dlen_le (d : Sel) : d.dlen ≤ 64 := by cases d <;> decide

theorem payload_length_le (n : Nat) (b0 b1 b2 : Byte) : (payload n b0 b1 b2).length ≤ Config.maxPayload := by
  simp [payload]

@[simp] theorem orByte_length (P : List Byte) (k : Nat) (m : Byte) : (orByte P k m).length = P.length := by
  simp [orByte]

/-- `PAD` has exactly `rate − n` bytes (R110). -/
@[simp] theorem pad_length (n rate : Nat) : (pad n rate).length = rate - n := by simp [pad]

/-- The per-byte step of `ABSORB` while the buffer does not fill. -/
theorem absorbByte_of_ne (s : State) (b : Byte) (h : s.buf.length + 1 ≠ s.sel.rate) :
    absorbByte s b = bufAppend [b] s := by
  simp [absorbByte, h]

/-- The per-byte step of `ABSORB` when the byte completes the block. -/
theorem absorbByte_of_eq (s : State) (b : Byte) (h : s.buf.length + 1 = s.sel.rate) :
    absorbByte s b = absorbBlock (bufAppend [b] s) := by
  simp [absorbByte, h]

@[simp] theorem absorbByte_sel (s : State) (b : Byte) : (absorbByte s b).sel = s.sel := by
  by_cases h : s.buf.length + 1 = s.sel.rate
  · simp [absorbByte_of_eq s b h]
  · simp [absorbByte_of_ne s b h]

/-- Bytes that do not fill the buffer are appended. -/
theorem foldl_absorbByte_of_lt (bs : List Byte) (s : State) (h : s.buf.length + bs.length < s.sel.rate) :
    bs.foldl absorbByte s = bufAppend bs s := by
  induction bs generalizing s with
  | nil => simp [bufAppend]
  | cons b bs ih =>
    simp only [List.length_cons] at h
    rw [List.foldl_cons, absorbByte_of_ne s b (by omega), ih]
    · simp [bufAppend]
    · simp; omega

/-- Bytes that fill the buffer exactly make the block (R123, R124). -/
theorem foldl_absorbByte_of_eq (bs : List Byte) (s : State) (hb : bs ≠ [])
    (h : s.buf.length + bs.length = s.sel.rate) : bs.foldl absorbByte s = absorbBlock (bufAppend bs s) := by
  obtain ⟨init, last, rfl⟩ : ∃ init last, bs = init ++ [last] := ⟨_, _, (List.dropLast_append_getLast hb).symm⟩
  simp only [List.length_append, List.length_cons, List.length_nil] at h
  rw [List.foldl_append, foldl_absorbByte_of_lt init s (by omega)]
  simp only [List.foldl_cons, List.foldl_nil]
  rw [absorbByte_of_eq _ _ (by simp; omega)]
  simp [bufAppend]

/-- The XOR of `ABSORB_BLOCK` is the XOR with the block as lanes, zero-extended (R124, R129). -/
theorem xorBlock_lanes_eq (s : State) : (xorBlock s).lanes = xorLanes s.lanes (blockLanes s.sel s.buf) := by
  refine lanes_ext fun i => ?_
  simp only [xorBlock, memReadBuf, Fin.getElem_fin, lanesOf_getElem, xorLanes_getElem, blockLanes]
  split <;> simp

/-- A capacity lane is not touched by the XOR (R42). -/
theorem xorBlock_capacity (s : State) (i : Nat) (h : i < 25) (hc : s.sel.rlanes ≤ i) :
    (xorBlock s).lanes[i] = s.lanes[i] := by
  simp [xorBlock, Nat.not_lt.mpr hc]

@[simp] theorem responseOf_status (st : Status) (bs : List Byte) : (responseOf st bs).status = st := rfl

/-- The response without payload is `(status, 0, 0)`. -/
@[simp] theorem responseOf_nil (st : Status) : responseOf st [] = ⟨st, 0, 0⟩ := rfl

/-- `LEN` is the number of payload bytes (R70). -/
theorem responseOf_len (st : Status) (bs : List Byte) (h : bs.length < 256) :
    (responseOf st bs).len.toNat = bs.length := by
  simp [responseOf, Nat.mod_eq_of_lt h]

/-- Payload byte `j` is at `DATA[8j+7:8j]` (R70). -/
theorem responseOf_byte (st : Status) (bs : List Byte) (j : Nat) (h : j < 64) :
    (responseOf st bs).data.extractLsb' (8 * j) 8 = bs.getD j 0 :=
  packLE_byte 512 bs j (by omega)

/-- "all bits `DATA[511:8·LEN]` are 0" (R70). -/
theorem responseOf_above (st : Status) (bs : List Byte) : (responseOf st bs).data >>> (8 * bs.length) = 0 := by
  ext k hk
  have h : bs.length ≤ (8 * bs.length + k) / 8 := by omega
  rw [BitVec.getElem_ushiftRight]
  simp [responseOf, packLE_getLsbD, List.getElem?_eq_none h]

/-- `SQUEEZE` takes `DLEN` bytes (R128). -/
@[simp] theorem squeeze_length (s : State) : (squeeze s).length = s.sel.dlen := by
  have := dlen_le s.sel
  simp [squeeze, memReadST]; omega

/-- `SQUEEZE` takes the first bytes of the State (R128). -/
theorem squeeze_getD (s : State) (j : Nat) (h : j < s.sel.dlen) : (squeeze s).getD j 0 = (stBytes s.lanes).getD j 0 := by
  simp [squeeze, memReadST, h]

end Sys2Proof.Machine
end

