-- ==== Sys2Proof/Laws/PerInstr.lean ====
section
/-! SUPPORT. Statements for all instructions, one lemma per constructor. -/

namespace Sys2Proof.Laws.EncodesInRow

/-- The encoding of the command matches its own row of the table and no other (30_encoding.md R62: "the four sets are
disjoint"). -/
def Statement (i : Instr) : Prop := ∀ r ∈ opTable, r.accepts (encode i) = decide (r = i.row)

/-- It is enough that the command's own row accepts: another row has another opcode. -/
theorem of_row {i : Instr} (h : i.row.accepts (encode i) = true) : Statement i := by
  intro r hr
  by_cases hri : r = i.row
  · rw [hri, h]; simp
  · have : ¬ r.accepts (encode i) = true := fun ha =>
      hri (row_of_op r hr _ (row_mem i) ((op_of_accepts hr ha).symm.trans (encode_op i)))
    simpa [hri] using this

theorem init (imm16 : Nat) : Statement (.init imm16) := by
  have h : encode (.init imm16) &&& (0xFFFF0000 : Word) = 0x10000000 := by
    ext k hk; interval_cases k <;> simp [encode]
  exact of_row (by simpa [OpRow.accepts, Instr.row] using h)

theorem init256 : Statement .init256 := of_row (by decide)

theorem absorb (n : Nat) (b0 b1 b2 : Byte) : Statement (.absorb n b0 b1 b2) := by
  have h : encode (.absorb n b0 b1 b2) &&& (0xFC000000 : Word) = 0x30000000 := by
    ext k hk; interval_cases k <;> simp [encode]
  exact of_row (by simpa [OpRow.accepts, Instr.row] using h)

theorem final : Statement .final := of_row (by decide)

end Sys2Proof.Laws.EncodesInRow
end

