-- ==== Sys2Proof/Laws/Step.lean ====
section
/-! SUPPORT. What a command and a step can do, said once: provers cite these inversions instead of unfolding `exec` and
`step` (30_encoding.md R60; 43_sponge_commands.md R121 to R125). -/

namespace Sys2Proof.Machine

/-- What a command leaves in the block is one of these states; no other, and no stop. -/
theorem exec_cases {i : Instr} {s t : State} (h : exec i s = .next t) :
    (∃ d, i = .init d ∧ selOfBits d = none ∧ t = raiseError .configurationError s) ∨
    (∃ d sel, i = .init d ∧ selOfBits d = some sel ∧ t = respond .ok [] (clearTo sel s)) ∨
    (i = .init256 ∧ t = respond .ok [] (clearTo .d256 s)) ∨
    (∃ n b0 b1 b2, i = .absorb n b0 b1 b2 ∧ t = finishAbsorb ((payload n b0 b1 b2).foldl absorbByte s)) ∨
    (i = .final ∧ t = finishFinal (absorbBlock (padBuffer s))) := by
  cases i with
  | init d =>
    simp only [exec, execInit] at h
    cases hd : selOfBits d with
    | none => rw [hd] at h; exact .inl ⟨d, rfl, hd, (Host.Outcome.next.inj h).symm⟩
    | some sel => rw [hd] at h; exact .inr (.inl ⟨d, sel, rfl, hd, (Host.Outcome.next.inj h).symm⟩)
  | init256 => exact .inr (.inr (.inl ⟨rfl, (Host.Outcome.next.inj h).symm⟩))
  | absorb n b0 b1 b2 => exact .inr (.inr (.inr (.inl ⟨n, b0, b1, b2, rfl, (Host.Outcome.next.inj h).symm⟩)))
  | final => exact .inr (.inr (.inr (.inr ⟨rfl, (Host.Outcome.next.inj h).symm⟩)))

/-- Per-byte steps change no field of the host's side, no size, no phase and no command in progress. -/
theorem foldl_absorbByte_frame (bs : List Byte) (s : State) :
    let t := bs.foldl absorbByte s
    t.sel = s.sel ∧ t.phase = s.phase ∧ t.work = s.work ∧ t.rsp = s.rsp ∧ t.rst = s.rst ∧ t.cmdIn = s.cmdIn ∧
      t.rspReady = s.rspReady ∧ t.rspOut = s.rspOut := by
  induction bs generalizing s with
  | nil => simp
  | cons b bs ih =>
    have hb := ih (absorbByte s b)
    by_cases h : s.buf.length + 1 = s.sel.rate
    · simpa [absorbByte_of_eq s b h] using hb
    · simpa [absorbByte_of_ne s b h] using hb

/-- The event of a step, from the ports and the state (R60, R161, R164). -/
theorem nextEvent_cases (s : State) :
    (s.rst = true ∧ s.nextEvent = .reset) ∨
    (s.rst = false ∧ s.working = true ∧ s.nextEvent = .progress) ∨
    (s.rst = false ∧ s.working = false ∧ ∃ r, s.rsp = some r ∧ s.rspReady = true ∧ s.nextEvent = .deliver r) ∨
    (s.rst = false ∧ s.working = false ∧ (∃ r, s.rsp = some r) ∧ s.rspReady = false ∧ s.nextEvent = .hold) ∨
    (s.rst = false ∧ s.working = false ∧ s.rsp = none ∧ s.cmdIn = [] ∧ s.nextEvent = .idle) ∨
    (s.rst = false ∧ s.working = false ∧ s.rsp = none ∧ ∃ w rest, s.cmdIn = w :: rest ∧ s.nextEvent = .command w rest) := by
  unfold State.nextEvent
  cases hr : s.rst <;> cases hw : s.working <;> cases hp : s.rsp <;> cases hc : s.cmdIn <;> cases hy : s.rspReady <;> simp

/-- What a step answers: one case for each event (R60). -/
theorem step_cases (s : State) :
    (s.nextEvent = .reset ∧ step s = .next (hardReset s)) ∨
    (s.nextEvent = .progress ∧ step s = .next (advance s)) ∨
    (∃ r, s.nextEvent = .deliver r ∧ step s = .next (deliver r s)) ∨
    ((s.nextEvent = .hold ∨ s.nextEvent = .idle) ∧ step s = .next s) ∨
    (∃ w rest i, s.nextEvent = .command w rest ∧ decode w = .ok i ∧ step s = exec i (takeWord rest s)) ∨
    (∃ w rest e, s.nextEvent = .command w rest ∧ decode w = .error e ∧
      step s = .next (raiseIllegalCommand (takeWord rest s))) := by
  cases he : s.nextEvent with
  | reset => simp [step, he]
  | progress => simp [step, he]
  | deliver r => simp [step, he]
  | hold => simp [step, he]
  | idle => simp [step, he]
  | command w rest =>
    cases hd : decode w with
    | ok i => simp [step, he, hd]
    | error e => simp [step, he, hd]

/-- A state between commands is not working. -/
theorem working_eq_false {s : State} : s.working = false ↔ s.busy = false ∧ s.work = none := by
  simp [State.working]

/-- The event when a word is offered to a ready block (R60). -/
theorem nextEvent_command {s : State} {w : Word} {rest : List Word} (hr : s.rst = false) (hb : s.busy = false)
    (hw : s.work = none) (hp : s.rsp = none) (hc : s.cmdIn = w :: rest) : s.nextEvent = .command w rest := by
  simp [State.nextEvent, State.working, hr, hb, hw, hp, hc]

end Sys2Proof.Machine
end

