-- ==== Sys2Proof/Laws/Refined.lean ====
section
/-! SUPPORT. What the operations of the finer machine can do (40_permutation_engine.md R92; 43_sponge_commands.md R123). -/

namespace Sys2Proof.Machine

/-- `ABSORB`'s loop in the finer machine touches nothing of the host's side and not the size. -/
theorem absorbFrom_frame (bs : List Byte) (s : State) :
    (absorbFrom bs s).cmdIn = s.cmdIn ∧ (absorbFrom bs s).rspOut = s.rspOut ∧ (absorbFrom bs s).rst = s.rst ∧
      (absorbFrom bs s).rspReady = s.rspReady ∧ (absorbFrom bs s).sel = s.sel := by
  induction bs generalizing s with
  | nil => simp [absorbFrom]
  | cons b bs ih =>
    simp only [absorbFrom]
    split
    · simp
    · simpa using ih (bufAppend [b] s)

/-- Progress touches nothing of the host's side and not the size (R92). -/
theorem advance_frame (s : State) :
    (advance s).cmdIn = s.cmdIn ∧ (advance s).rspOut = s.rspOut ∧ (advance s).rst = s.rst ∧
      (advance s).rspReady = s.rspReady ∧ (advance s).sel = s.sel := by
  unfold advance
  split
  · rw [engineStep_frame]; simp
  · unfold resumeWork
    split
    · simp
    · simp [absorbFrom_frame]
    · simp

/-- Bytes that do not fill the buffer are only appended, in the finer machine too (R123). -/
theorem absorbFrom_of_lt (bs : List Byte) (s : State) (hw : s.work = none)
    (h : s.buf.length + bs.length < s.sel.rate) : absorbFrom bs s = finishAbsorb (bs.foldl absorbByte s) := by
  induction bs generalizing s with
  | nil => simp [absorbFrom, finishAbsorb, respond, ← hw]
  | cons b bs ih =>
    simp only [List.length_cons] at h
    simp only [absorbFrom, List.foldl_cons]
    rw [if_neg (by simp; omega), absorbByte_of_ne _ _ (by omega)]
    exact ih _ (by simpa using hw) (by simp; omega)

end Sys2Proof.Machine
end

