-- ==== Sys2Proof/Laws/Roms.lean ====
section
/-! SUPPORT. The contents of the ROMs against the spec's other ways of giving them (41_rom_tables.md R102 to R107). -/

namespace Sys2Proof.Machine

/-- Each packed word is `(RHO[i] << 5) | PI[i]` (R105), and the destination of lane `(x,y)` is `(y, 2x+3y)` (R84). -/
theorem offRom_eq : ∀ i : Fin 25, (offRom[i]).toNat = rhoOffset i * 32 + (piDest i).val := by decide

theorem piDest_laneIx : ∀ x y : Fin 5, piDest (laneIx x y) = laneIx y (2 * x + 3 * y) := by decide

/-- `PI` is a bijection of the 25 positions (R84, R105). -/
theorem piDest_injective : Function.Injective piDest := by decide

/-- The only fixed point of `PI` is lane 0 (R84, R105). -/
theorem piDest_fixed : ∀ i : Fin 25, piDest i = i ↔ i = 0 := by decide

theorem rhoOffset_lt : ∀ i : Fin 25, rhoOffset i < 64 := by decide

/-- All 25 offsets are distinct (R83). -/
theorem rhoOffset_injective : Function.Injective rhoOffset := by decide

/-- The walk of R107(a): the lanes visited from (1,0) and the offset of the `t`-th of them. -/
def rhoWalk : Nat → Fin 5 × Fin 5
  | 0 => (1, 0)
  | t + 1 => ((rhoWalk t).2, 2 * (rhoWalk t).1 + 3 * (rhoWalk t).2)

/-- The offsets are the triangular numbers along the walk (R107(a)). -/
theorem rhoOffset_walk : ∀ t : Fin 24,
    rhoOffset (laneIx (rhoWalk t.val).1 (rhoWalk t.val).2) = ((t.val + 1) * (t.val + 2) / 2) % 64 := by decide

/-- Bit `j` of a lane made from bit numbers (R101, R102). -/
theorem laneOfBits_getLsbD (ks : List Nat) (j : Nat) (h : j < 64) :
    (laneOfBits ks).getLsbD j = decide (j ∈ ks) := by
  induction ks with
  | nil => simp [laneOfBits]
  | cons k ks ih =>
    have hc : laneOfBits (k :: ks) = BitVec.twoPow 64 k ||| laneOfBits ks := rfl
    rw [hc, BitVec.getLsbD_or, ih, BitVec.getLsbD_twoPow]
    by_cases hk : k = j
    · simp [hk, h]
    · simp [hk, Ne.symm hk]

/-- Bit `j` of a round constant (R101, R102). -/
theorem rc_getLsbD (ir : Fin 24) (j : Nat) (h : j < 64) : (rc ir).getLsbD j = decide (j ∈ rcBits[ir]) :=
  laneOfBits_getLsbD _ j h

/-- The register of R107(b) after `t` shifts. -/
def lfsr : Nat → Nat
  | 0 => 1
  | t + 1 => let r := 2 * lfsr t; if r ≥ 256 then r ^^^ 0x171 else r

/-- The round constants are the bits of the LFSR (R107(b)): bit `2^j − 1` of `RC[ir]` is `rc(j + 7·ir)`. -/
theorem rc_lfsr : ∀ ir : Fin 24,
    (rc ir).toNat = ((List.range 7).map fun j => (lfsr ((j + 7 * ir.val) % 255) % 2) * 2 ^ (2 ^ j - 1)).sum := by
  decide +kernel

end Sys2Proof.Machine
end

