-- ==== Sys2Proof/Laws/Safety.lean ====
section
/-! SUPPORT. Inversions of the events, totality of a step, and what the shared operations keep, for the statements about
steps and runs (30_encoding.md R60, R70; 43_sponge_commands.md R121 to R125). -/

namespace Sys2Proof.Machine

/-- A command is accepted only by a ready block, and it is the first word offered (R60). -/
theorem nextEvent_command_inv {s : State} {w : Word} {rest : List Word} (h : s.nextEvent = .command w rest) :
    s.Ready ∧ s.cmdIn = w :: rest := by
  rcases nextEvent_cases s with x | x | ⟨_, _, _, _, _, x⟩ | x | x | ⟨a, b, c, w', r', d, x⟩
  · simp [x] at h
  · simp [x] at h
  · simp [x] at h
  · simp [x] at h
  · simp [x] at h
  · rw [x] at h
    injection h with h1 h2
    subst h1 h2
    rw [working_eq_false] at b
    exact ⟨⟨a, b.1, b.2, c⟩, d⟩

/-- A response is delivered only when it is pending and the host is ready for it (R60). -/
theorem nextEvent_deliver_inv {s : State} {r : Response} (h : s.nextEvent = .deliver r) :
    s.rsp = some r ∧ s.rspReady = true ∧ s.rst = false ∧ s.working = false := by
  rcases nextEvent_cases s with x | x | ⟨a, b, r', hr, c, x⟩ | x | x | ⟨_, _, _, _, _, _, x⟩
  · simp [x] at h
  · simp [x] at h
  · rw [x] at h
    injection h with h
    subst h
    exact ⟨hr, c, a, b⟩
  · simp [x] at h
  · simp [x] at h
  · simp [x] at h

/-- A command makes progress only when one is in progress (R164). -/
theorem nextEvent_progress_inv {s : State} (h : s.nextEvent = .progress) : s.rst = false ∧ s.working = true := by
  rcases nextEvent_cases s with x | x | ⟨_, _, _, _, _, x⟩ | x | x | ⟨_, _, _, _, _, _, x⟩
  · simp [x] at h
  · exact ⟨x.1, x.2.1⟩
  · simp [x] at h
  · simp [x] at h
  · simp [x] at h
  · simp [x] at h

/-- The reset event happens only when reset is asserted (R161). -/
theorem nextEvent_reset_inv {s : State} (h : s.nextEvent = .reset) : s.rst = true := by
  rcases nextEvent_cases s with x | x | ⟨_, _, _, _, _, x⟩ | x | x | ⟨_, _, _, _, _, _, x⟩
  · exact x.1
  · simp [x] at h
  · simp [x] at h
  · simp [x] at h
  · simp [x] at h
  · simp [x] at h

/-- The sizes `INIT` accepts (R121). -/
theorem selOfBits_none_iff (d : Nat) : selOfBits d = none ↔ d ∉ [224, 256, 384, 512] := by
  unfold selOfBits
  split <;> (try split) <;> (try split) <;> (try split) <;> simp_all

/-- The size accepted is the size asked for (R26, R121). -/
theorem selOfBits_some {d : Nat} {sel : Sel} (h : selOfBits d = some sel) : d = sel.dbits := by
  unfold selOfBits at h
  split at h <;> (try split at h) <;> (try split at h) <;> (try split at h) <;> simp at h <;> subst h <;> assumption

/-- The response without payload has R70's form. -/
theorem responseOf_nil_wf (st : Status) : (responseOf st []).Wf := ⟨fun _ => rfl, by simp, by simp⟩

/-- The digest response has R70's form. -/
theorem responseOf_squeeze_wf (s : State) : (responseOf .ok (squeeze s)).Wf := by
  have hl : (responseOf .ok (squeeze s)).len.toNat = s.sel.dlen := by
    have := dlen_le s.sel
    rw [responseOf_len, squeeze_length]
    rw [squeeze_length]; omega
  refine ⟨by simp, ?_, ?_⟩
  · rw [hl]; cases s.sel <;> decide
  · rw [hl, ← squeeze_length, responseOf_above]

/-- A byte absorbed leaves the buffer below the rate (R27). -/
theorem absorbByte_buf_lt (u : State) (b : Byte) (h : u.buf.length < u.sel.rate) :
    (absorbByte u b).buf.length < (absorbByte u b).sel.rate := by
  by_cases hx : u.buf.length + 1 = u.sel.rate
  · rw [absorbByte_of_eq _ _ hx]; simp; omega
  · rw [absorbByte_of_ne _ _ hx]; simp; omega

/-- Bytes absorbed leave the buffer below the rate (R27). -/
theorem foldl_absorbByte_buf_lt (bs : List Byte) (u : State) (h : u.buf.length < u.sel.rate) :
    (bs.foldl absorbByte u).buf.length < (bs.foldl absorbByte u).sel.rate := by
  induction bs generalizing u with
  | nil => exact h
  | cons b bs ih => exact ih _ (absorbByte_buf_lt u b h)

/-- Bytes absorbed leave `BUSY` at 0 (R28). -/
theorem foldl_absorbByte_busy (bs : List Byte) (u : State) (h : u.busy = false) :
    (bs.foldl absorbByte u).busy = false := by
  induction bs generalizing u with
  | nil => exact h
  | cons b bs ih =>
    apply ih
    by_cases hx : u.buf.length + 1 = u.sel.rate
    · simp [absorbByte_of_eq _ _ hx]
    · simp [absorbByte_of_ne _ _ hx, h]

end Sys2Proof.Machine
end

