-- ==== Sys2Proof/Tests/Slice0.lean ====
section
/-! SUPPORT. Tests and witnesses. The expected values of the tests are copied from spec/95_test_vectors.md (V and S
entries), 30_encoding.md and 42_padding_rule.md, as each comment names. A witness shows a concrete input that meets
all hypotheses of the statement it is named after. -/

namespace Sys2Proof.Tests

open Sys2Proof Sys2Proof.Machine

/-! ## Helpers -/

/-- The state a step or a command answers. -/
def after (o : Host.Outcome State Fault Refusal) : State :=
  match o with
  | .next t => t
  | .fault _ => State.reset
  | .refused _ => State.reset

/-- The block after reset with words offered. -/
def offering (ws : List Word) : State := { State.reset with cmdIn := ws }

/-- A block with `n` bytes `A3` buffered and the first lane not zero. -/
def filled (sel : Sel) (n : Nat) : State :=
  { State.reset with sel := sel, buf := List.replicate n 0xA3, phase := .absorbing, lanes := zeroLanes.set 0 7 }

/-- A response pending, not taken by the host. -/
def holding : State := { filled .d512 5 with rsp := some ⟨.ok, 0, 0⟩, rspReady := false, cmdIn := [0x40000000] }

/-- An `ABSORB` stopped at round 12 of its permutation, two payload bytes still to append. -/
def midAbsorb : State :=
  { filled .d512 72 with rnd := 12, busy := true, work := some (.absorbing [0x62, 0x63]) }

/-! ## Well-formedness: the smoke test (30_encoding.md R63, R65, R67) -/

theorem test_wf_init_16_bits : (Instr.init 65535).wf = true ∧ (Instr.init 65536).wf = false := by decide
theorem test_wf_absorb_count : (Instr.absorb 3 1 2 3).wf = true ∧ (Instr.absorb 4 1 2 3).wf = false := by decide

/-! ## Decoding: words laid out field by field from R61 and R63 to R66 -/

/-- R63: `0001`, twelve zeros, `IMM16` = 224. -/
theorem test_decode_init : decode (0b0001#4 ++ 0b000000000000#12 ++ 0b0000000011100000#16) = .ok (.init 224) := by decide

/-- R64: `0010`, 28 zeros. -/
theorem test_decode_init256 : decode (0b0010#4 ++ 0b0000000000000000000000000000#28) = .ok .init256 := by decide

/-- R65: `0011`, `00`, `N` = 3, `B2`, `B1`, `B0`: the bytes of "abc" (V14: `0x33636261`). -/
theorem test_decode_absorb :
    decode (0b0011#4 ++ 0b00#2 ++ 0b11#2 ++ 0b01100011#8 ++ 0b01100010#8 ++ 0b01100001#8) = .ok (.absorb 3 0x61 0x62 0x63) := by
  decide

/-- R66: `0100`, 28 zeros. -/
theorem test_decode_final : decode (0b0100#4 ++ 0b0000000000000000000000000000#28) = .ok .final := by decide

/-- R68, V22: one word of each illegal class. -/
theorem test_decode_illegal :
    decode 0x00000000 = .error .unassignedOp ∧ decode 0x50000000 = .error .unassignedOp ∧
    decode 0x10010100 = .error .zero12 ∧ decode 0x20000001 = .error .zero28 ∧ decode 0x40000001 = .error .zero28 ∧
    decode 0x34000000 = .error .zero2 := by
  decide

/-- R71: `ABSORB` assembles to `0x30000000 | (n << 24) | b0 | (b1 << 8) | (b2 << 16)`. -/
theorem test_encode_absorb : encode (.absorb 3 0x61 0x62 0x63) = 0x33636261 := by decide

/-- The table's numbering of a row's word is the word itself. -/
theorem test_decode_table_word : decodeTableWord 32 0x33636261 = some (.absorb 3 0x61 0x62 0x63) := by decide

/-! ## The step mappings (V1 to V8, V12) -/

/-- V1: a bit in lane (0,0) reaches columns 1 and 4. -/
theorem test_theta_one_bit : (theta (zeroLanes.set 0 1)).toList =
    [1, 1, 0, 0, 2, 0, 1, 0, 0, 2, 0, 1, 0, 0, 2, 0, 1, 0, 0, 2, 0, 1, 0, 0, 2] := by decide +kernel

/-- V3: the rotation wraps bit 63 to bit 0. -/
theorem test_theta_wraps : (theta (zeroLanes.set 24 0x8000000000000000)).toList.take 5 =
    [0x8000000000000000, 0, 0, 1, 0] := by decide +kernel

/-- V5: the first two rows of the rotated lanes `8000000000000001`. -/
theorem test_rho_wraps : (rho (Vector.replicate 25 0x8000000000000001)).toList.take 10 =
    [0x8000000000000001, 0x0000000000000003, 0x6000000000000000, 0x0000000018000000, 0x000000000C000000,
      0x0000001800000000, 0x0000180000000000, 0x0000000000000060, 0x00C0000000000000, 0x0000000000180000] := by
  decide +kernel

/-- V6: where each lane goes, from the lanes holding their own indices. -/
theorem test_pi_moves : (pi (lanesOf fun i => BitVec.ofNat 64 i.val)).toList =
    [0x00, 0x06, 0x0C, 0x12, 0x18, 0x03, 0x09, 0x0A, 0x10, 0x16, 0x01, 0x07, 0x0D, 0x13, 0x14, 0x04, 0x05, 0x0B, 0x11,
      0x17, 0x02, 0x08, 0x0E, 0x0F, 0x15] := by decide +kernel

/-- V7: row 0. -/
theorem test_chi_row : (chi ((((zeroLanes.set 0 0xFFFFFFFFFFFFFFFF).set 2 0xFFFFFFFFFFFFFFFF).set 3 0x00000000FFFFFFFF).set 4
    0x0F0F0F0F0F0F0F0F)).toList.take 5 =
    [0, 0, 0xF0F0F0F0FFFFFFFF, 0xF0F0F0F00F0F0F0F, 0x0F0F0F0F0F0F0F0F] := by decide +kernel

/-- V8: rounds 1 and 23, and the other lanes unchanged. -/
theorem test_iota : (iota (zeroLanes.set 0 1) 1).toList.take 3 = [0x8083, 0, 0] ∧
    (iota (Vector.replicate 25 0xFFFFFFFFFFFFFFFF) 23)[0] = 0x7FFFFFFF7FFF7FF7 := by decide +kernel

/-- V12: packed ROM words, round constants and their fold. -/
theorem test_roms : offRom[0] = 0x000 ∧ offRom[1] = 0x02A ∧ offRom[2] = 0x7D4 ∧ offRom[5] = 0x490 ∧ offRom[24] = 0x1C4 ∧
    rc 1 = 0x0000000000008082 ∧ rc 2 = 0x800000000000808A ∧ rc 23 = 0x8000000080008008 ∧
    (List.finRange 24).foldl (fun acc i => acc ^^^ rc i) 0 = 0x800000000000800A := by decide +kernel

/-! ## Padding and squeezing -/

/-- V13: the three shapes at rate 136. -/
theorem test_pad : pad 133 136 = [0x01, 0x00, 0x80] ∧ pad 134 136 = [0x01, 0x80] ∧ pad 135 136 = [0x81] := by decide

/-- V15: 28 bytes, the last four from the low half of lane 3. -/
theorem test_squeeze_224 : squeeze { filled .d224 0 with lanes :=
      (((zeroLanes.set 0 0xE1EB0685761104C3).set 1 0x387DE8E21E1B87C2).set 2 0x979B0A30172334DF).set 3 0xA565B0DFA8C65EA9 } =
    [0xc3, 0x04, 0x11, 0x76, 0x85, 0x06, 0xeb, 0xe1, 0xc2, 0x87, 0x1b, 0x1e, 0xe2, 0xe8, 0x7d, 0x38,
      0xdf, 0x34, 0x23, 0x17, 0x30, 0x0a, 0x9b, 0x97, 0xa9, 0x5e, 0xc6, 0xa8] := by decide +kernel

/-! ## One step of each command -/

/-- R121: `INIT 512` in the middle of a message. -/
theorem test_step_init :
    let t := after (step ((filled .d224 5).withFetchWord 32 0x10000200))
    t.sel = .d512 ∧ t.buf = [] ∧ t.lanes.toList = List.replicate 25 0 ∧ t.rsp = some ⟨.ok, 0, 0⟩ := by decide +kernel

/-- R141: `INIT 100` responds with status 1 and keeps the message. -/
theorem test_step_init_unsupported :
    let t := after (step ((filled .d224 5).withFetchWord 32 0x10000064))
    t.sel = .d224 ∧ t.buf.length = 5 ∧ t.lanes[0] = 7 ∧ t.rsp = some ⟨.configurationError, 0, 0⟩ := by decide +kernel

/-- R122: `INIT256` in the middle of a message. -/
theorem test_step_init256 :
    let t := after (step ((filled .d224 5).withFetchWord 32 0x20000000))
    t.sel = .d256 ∧ t.buf = [] ∧ t.phase = .fresh ∧ t.rsp = some ⟨.ok, 0, 0⟩ := by decide +kernel

/-- V14: `ABSORB 0x61,0x62,0x63` after reset. -/
theorem test_step_absorb :
    let t := after (step (State.reset.withFetchWord 32 0x33636261))
    t.buf = [0x61, 0x62, 0x63] ∧ t.bufLen = 3 ∧ t.phase = .absorbing ∧ t.lanes[0] = 0 ∧ t.rsp = some ⟨.ok, 0, 0⟩ := by decide +kernel

/-- R123: the second of three bytes completes the block; the third is buffered. -/
theorem test_step_absorb_fills :
    let t := after (step ((filled .d512 70).withFetchWord 32 0x33636261))
    t.buf = [0x63] ∧ t.rnd = 24 ∧ t.busy = false := by decide

/-- S2, V14: the known answer for "abc" at 256 bits, through two steps' commands. -/
theorem test_step_final_known_answer :
    ((after (step ((after (exec (.absorb 3 0x61 0x62 0x63) State.reset)).withFetchWord 32 0x40000000))).rsp.map
      fun r => (r.status, r.len, r.data)) =
    some (.ok, 32, 0x456C2DA18FF544EC36A0643AE3E6D1C067D6C826A87BD4C74FA945EA7A65034E) := by decide +kernel

/-- R142: an illegal word, status 2. -/
theorem test_step_illegal :
    (after (step ((filled .d224 5).withFetchWord 32 0x50000000))).rsp = some ⟨.illegalCommand, 0, 0⟩ := by decide +kernel

/-! ## The assembler (R71, R72, V15) -/

theorem test_assemble_absorb : assembleText "ABSORB 0x61,0x62,0x63 ; abc".toList = some [0x33636261] := by decide
theorem test_assemble_hash : assembleText "HASH 224, \"abc\"".toList = some [0x100000E0, 0x33636261, 0x40000000] := by decide
theorem test_assemble_word : assembleText ".word 0x40000001".toList = some [0x40000001] := by decide

/-! ## Witnesses: states that meet the hypotheses of the statements -/

theorem ready_offering (ws : List Word) : (offering ws).Ready := ⟨rfl, rfl, rfl, rfl⟩

theorem fresh_offering (ws : List Word) : (offering ws).FreshAt .d256 := ⟨rfl, rfl, rfl, rfl, rfl⟩

theorem inv_filled (sel : Sel) (n : Nat) (h : n < sel.rate) : (filled sel n).Inv :=
  ⟨by simpa [filled] using h, rfl, rfl, by simp [filled], by simp [filled, State.reset], by simp [filled, State.reset]⟩

theorem witness_DecodeOfEncodeIsTheCommand :
    (Instr.init 65535).wf = true ∧ Instr.init256.wf = true ∧ (Instr.absorb 0 0xFF 0x80 0x01).wf = true ∧
    (Instr.absorb 3 0xFF 0x80 0x01).wf = true ∧ Instr.final.wf = true := by decide

theorem witness_EncodeOfDecodeIsTheWord : decode 0x30FFFFFF = .ok (.absorb 0 0xFF 0xFF 0xFF) := by decide

/-- Each class of R68 at a boundary of its range, and a ready block offering an illegal word. -/
theorem witness_IllegalWordsAreExactlyThoseListed :
    decode 0x0FFFFFFF = .error .unassignedOp ∧ decode 0x50000000 = .error .unassignedOp ∧
    decode 0xFFFFFFFF = .error .unassignedOp ∧ decode 0x10010000 = .error .zero12 ∧ decode 0x28000000 = .error .zero28 ∧
    decode 0x34000000 = .error .zero2 ∧ decode 0x40000001 = .error .zero28 ∧
    (offering [0x50000000, 1]).Ready ∧ (offering [0x50000000, 1]).cmdIn = 0x50000000 :: [1] := by
  refine ⟨by decide, by decide, by decide, by decide, by decide, by decide, by decide, ready_offering _, rfl⟩

theorem witness_StepRunsTheDecodedCommand :
    (offering [0x33636261, 7]).Ready ∧ (offering [0x33636261, 7]).cmdIn = 0x33636261 :: [7] ∧
    decode 0x33636261 = .ok (.absorb 3 0x61 0x62 0x63) := ⟨ready_offering _, rfl, by decide⟩

theorem witness_AssertedResetAbandonsEverything : { midAbsorb with rst := true }.rst = true := rfl

/-- One state for each of the three clauses. -/
theorem witness_BlockHoldsDeliversAndWaits :
    (holding.rst = false ∧ holding.working = false ∧ holding.rsp = some ⟨.ok, 0, 0⟩ ∧ holding.rspReady = false) ∧
    ({ holding with rspReady := true }.rsp = some ⟨.ok, 0, 0⟩ ∧ { holding with rspReady := true }.working = false) ∧
    (State.reset.rsp = none ∧ State.reset.cmdIn = [] ∧ State.reset.working = false) := by decide +kernel

/-- A ready block offering a `FINAL`, and one offering another word. -/
theorem witness_EveryAcceptedWordGetsOneResponse :
    ((offering [0x40000000]).Ready ∧ (offering [0x40000000]).cmdIn = 0x40000000 :: [] ∧ decode 0x40000000 = .ok .final) ∧
    ((offering [0x00000000]).Ready ∧ (offering [0x00000000]).cmdIn = 0x00000000 :: [] ∧ decode 0x00000000 ≠ .ok .final) :=
  ⟨⟨ready_offering _, rfl, by decide⟩, ready_offering _, rfl, by decide⟩

/-- A step that takes a word, and one that delivers a response. -/
theorem witness_TransfersHappenOnlyOnTheHandshakes :
    (after (step (offering [0x20000000]))).cmdIn ≠ (offering [0x20000000]).cmdIn ∧
    (after (step { holding with rspReady := true })).rspOut ≠ { holding with rspReady := true }.rspOut := by decide

/-- Both clauses, the second just beside a size and at both ends of the operand. -/
theorem witness_InitSelectsTheSizeOrChangesNothing :
    (224, Sel.d224) ∈ [(224, Sel.d224), (256, Sel.d256), (384, Sel.d384), (512, Sel.d512)] ∧
    (512, Sel.d512) ∈ [(224, Sel.d224), (256, Sel.d256), (384, Sel.d384), (512, Sel.d512)] ∧
    0 ∉ [224, 256, 384, 512] ∧ 225 ∉ [224, 256, 384, 512] ∧ 65535 ∉ [224, 256, 384, 512] := by decide

/-- Both clauses where they meet: a buffer one byte short of the block with no byte and with one byte more, and three
bytes into a buffer four and three bytes short. -/
theorem witness_AbsorbBuffersOrAbsorbsTheBlock :
    ((filled .d256 135).buf.length < (filled .d256 135).sel.rate ∧
      ([1, 2, 3].take 0 : List Byte).length < (filled .d256 135).sel.rate - (filled .d256 135).buf.length ∧
      (filled .d256 135).sel.rate - (filled .d256 135).buf.length ≤ ([1, 2, 3].take 1 : List Byte).length) ∧
    ([1, 2, 3].take 3 : List Byte).length < (filled .d512 68).sel.rate - (filled .d512 68).buf.length ∧
    (filled .d512 69).sel.rate - (filled .d512 69).buf.length ≤ ([1, 2, 3].take 3 : List Byte).length := by decide +kernel

/-- Both errors. -/
theorem witness_ErrorsChangeNothing :
    ((offering [0x10000064]).Ready ∧ (after (step (offering [0x10000064]))).rsp = some ⟨.configurationError, 0, 0⟩) ∧
    (offering [0x50000000]).Ready ∧ (after (step (offering [0x50000000]))).rsp = some ⟨.illegalCommand, 0, 0⟩ :=
  ⟨⟨ready_offering _, by decide +kernel⟩, ready_offering _, by decide +kernel⟩

/-- A word of each status. -/
theorem witness_StatusTellsTheCause :
    ((offering [0x10000200]).Ready ∧ decode 0x10000200 = .ok (.init 512)) ∧
    ((offering [0x100000FF]).Ready ∧ decode 0x100000FF = .ok (.init 255)) ∧
    (offering [0x10010100]).Ready ∧ decode 0x10010100 = .error .zero12 :=
  ⟨⟨ready_offering _, by decide⟩, ⟨ready_offering _, by decide⟩, ready_offering _, by decide⟩

/-- The three ways the size changes. -/
theorem witness_OnlyConfigurationChangesTheSize :
    (after (step { filled .d512 5 with rst := true })).sel ≠ .d512 ∧
    (after (step (offering [0x10000180]))).sel ≠ (offering [0x10000180]).sel ∧
    (after (step { filled .d512 5 with cmdIn := [0x20000000] })).sel ≠ .d512 := by decide

theorem witness_LanesAreWrittenOnlyAsListed :
    (filled .d512 71).working = false ∧
    step (offering [0x33636261]) = .next (after (step (offering [0x33636261]))) := ⟨rfl, rfl⟩

theorem witness_ResponsesDependOnLanesBufferAndSizeAlone :
    let u : State := { filled .d384 9 with rnd := 24, phase := .fresh, rspReady := false }
    (filled .d384 9).lanes = u.lanes ∧ (filled .d384 9).buf = u.buf ∧ (filled .d384 9).sel = u.sel ∧ filled .d384 9 ≠ u := by
  refine ⟨rfl, rfl, rfl, fun h => ?_⟩
  exact absurd (congrArg State.rspReady h) (by decide)

theorem witness_FinalizeTwiceAnswersTheSameDigest : State.reset.FreshAt .d256 := ⟨rfl, rfl, rfl, rfl, rfl⟩

/-- An empty chunk, a full one, a byte. -/
theorem witness_RunOfAMessageAnswersItsDigest :
    let chunks : List (List Byte) := [[], [0x61, 0x62, 0x63], [0x64]]
    let s := offering (chunks.map (fun c => encode (absorbCommand c)) ++ [encode Instr.final])
    (∀ c ∈ chunks, c.length ≤ 3) ∧ s.FreshAt .d256 ∧ s.Ready ∧ s.rspReady = true ∧
    s.cmdIn = chunks.map (fun c => encode (absorbCommand c)) ++ [encode Instr.final] :=
  ⟨by decide, fresh_offering _, ready_offering _, rfl, rfl⟩

theorem witness_ChunkingDoesNotMatter :
    let cs : List (List Byte) := [[0x61, 0x62, 0x63], [0x64]]
    let ds : List (List Byte) := [[], [0x61], [0x62, 0x63], [0x64]]
    (∀ c ∈ cs, c.length ≤ 3) ∧ (∀ d ∈ ds, d.length ≤ 3) ∧ cs.flatten = ds.flatten ∧ cs ≠ ds := by decide

theorem witness_OneShotHelperHashesTheMessage :
    let s := { filled .d512 5 with cmdIn := (expandHash256 [0x61, 0x62, 0x63, 0x64]).map encode }
    s.Ready ∧ s.rspReady = true ∧ s.cmdIn = (expandHash256 [0x61, 0x62, 0x63, 0x64]).map encode :=
  ⟨⟨rfl, rfl, rfl, rfl⟩, rfl, rfl⟩

theorem witness_HashPseudoInstructionHashesTheMessage :
    let s := { filled .d512 5 with cmdIn := (expandHash Sel.d384.dbits []).map encode }
    s.Ready ∧ s.rspReady = true ∧ s.cmdIn = (expandHash Sel.d384.dbits []).map encode :=
  ⟨⟨rfl, rfl, rfl, rfl⟩, rfl, rfl⟩

/-- A full buffer but for one byte. -/
theorem witness_StepKeepsTheInvariant :
    (filled .d224 143).Inv ∧ step (filled .d224 143) = .next (filled .d224 143) := ⟨inv_filled _ _ (by decide), rfl⟩

theorem witness_PinDrivenRunsNeverStopAndStaySafe : (filled .d512 71).Inv := inv_filled _ _ (by decide)

theorem witness_BufLenIsTheNumberOfBufferedBytes : (filled .d224 143).Inv := inv_filled _ _ (by decide)

/-- A command that needs no permutation and two that do. -/
theorem witness_FineRunRefinesTheAtomicCommand :
    ((offering [0x33636261]).Ready ∧ decode 0x33636261 = .ok (.absorb 3 0x61 0x62 0x63)) ∧
    ({ filled .d512 70 with cmdIn := [0x33636261] }.Ready) ∧
    (offering [0x40000000]).Ready ∧ decode 0x40000000 = .ok .final :=
  ⟨⟨ready_offering _, by decide⟩, ⟨rfl, rfl, rfl, rfl⟩, ready_offering _, by decide⟩

/-- Both halves of the finer machine's invariant. -/
theorem witness_FineStepKeepsTheFineInvariant :
    midAbsorb.FineInv ∧ midAbsorb.busy = true ∧ (filled .d512 71).FineInv :=
  ⟨.inr ⟨rfl, by decide, rfl, .inr ⟨[0x62, 0x63], rfl, by decide⟩, by simp [midAbsorb, filled, State.reset]⟩, rfl,
    .inl (inv_filled _ _ (by decide))⟩

theorem witness_RhoRotatesByTheOffsetTable : (63 : Nat) < 64 := by decide

theorem witness_BytesAndLanesAreLittleEndian : ([1, 2, 3, 4, 5, 6, 7, 0x80] : List Byte).length = 8 ∧ 199 < 200 := by decide

/-- The three shapes where they meet. -/
theorem witness_PaddingIsDomainByteZerosAndFinalBit :
    (135 < 136 ∧ 136 - 135 = 1) ∧ (134 < 136 ∧ 136 - 134 = 2) ∧ (133 < 136 ∧ 3 ≤ 136 - 133) := by decide

theorem witness_PaddingInLaneTerms : (filled .d256 135).buf.length < (filled .d256 135).sel.rate ∧ 135 < 200 := by decide +kernel

theorem witness_PaddingBitsAreOneZerosOne : 135 < 136 ∧ 0 < 72 := by decide

end Sys2Proof.Tests
end

section
/-! SUPPORT. The invariant of the states between commands, kept by every command, every step and every run
(10_state.md R24, R27, R28; 30_encoding.md R60, R70). -/

namespace Sys2Proof.Machine

/-- A response of R70's form may become the pending one. -/
theorem State.Inv.respond {s : State} {st : Status} {bs : List Byte} (h : s.Inv) (hr : (responseOf st bs).Wf) :
    (Machine.respond st bs s).Inv where
  buf_lt := h.buf_lt
  busy := h.busy
  work := h.work
  fresh := h.fresh
  rsp_wf := by simpa using hr
  out_wf := h.out_wf

/-- Clearing the block meets `FRESH(sel)`'s clauses whatever the lanes, the buffer and the phase were (R32). -/
theorem clearTo_inv {s : State} (sel : Sel) (hb : s.busy = false) (hw : s.work = none)
    (hr : ∀ r, s.rsp = some r → r.Wf) (ho : ∀ r ∈ s.rspOut, r.Wf) : (clearTo sel s).Inv where
  buf_lt := by have := rate_bounds sel; simp; omega
  busy := hb
  work := hw
  fresh := fun _ => ⟨rfl, rfl⟩
  rsp_wf := hr
  out_wf := ho

theorem State.Inv.clearTo {s : State} (h : s.Inv) (sel : Sel) : (Machine.clearTo sel s).Inv :=
  clearTo_inv sel h.busy h.work h.rsp_wf h.out_wf

/-- The word transferred is no part of the invariant. -/
theorem State.Inv.takeWord {s : State} (h : s.Inv) (rest : List Word) : (Machine.takeWord rest s).Inv :=
  ⟨h.buf_lt, h.busy, h.work, h.fresh, h.rsp_wf, h.out_wf⟩

/-- Nor are the levels and words the host drives. -/
theorem State.Inv.drive {s : State} (h : s.Inv) (p : Pins) : (State.drive p s).Inv :=
  ⟨h.buf_lt, h.busy, h.work, h.fresh, h.rsp_wf, h.out_wf⟩

/-- The delivered response was a pending one, so it has R70's form. -/
theorem State.Inv.deliver {s : State} {r : Response} (h : s.Inv) (hr : s.rsp = some r) : (Machine.deliver r s).Inv where
  buf_lt := h.buf_lt
  busy := h.busy
  work := h.work
  fresh := h.fresh
  rsp_wf := by simp
  out_wf := by
    intro r' hr'
    rcases List.mem_append.mp hr' with hold | hnew
    · exact h.out_wf r' hold
    · rw [List.mem_singleton.mp hnew]; exact h.rsp_wf r hr

/-- Reset leaves `FRESH(1)` and what the host has received (R161). -/
theorem State.Inv.hardReset {s : State} (h : s.Inv) : (Machine.hardReset s).Inv where
  buf_lt := by simp
  busy := rfl
  work := rfl
  fresh := fun _ => ⟨rfl, rfl⟩
  rsp_wf := by simp
  out_wf := h.out_wf

/-- `ABSORB` keeps the buffer below the rate, and leaves the phase ABSORBING (R123). -/
theorem State.Inv.absorb {s : State} (h : s.Inv) (bs : List Byte) : (finishAbsorb (bs.foldl absorbByte s)).Inv := by
  obtain ⟨-, -, hwork, -, -, -, -, hout⟩ := foldl_absorbByte_frame bs s
  exact {
    buf_lt := foldl_absorbByte_buf_lt bs s h.buf_lt
    busy := foldl_absorbByte_busy bs s h.busy
    work := hwork.trans h.work
    fresh := by simp
    rsp_wf := by simpa using responseOf_nil_wf .ok
    out_wf := by simpa [hout] using h.out_wf }

/-- `FINAL` clears the block and answers a digest (R125). -/
theorem State.Inv.final {s : State} (h : s.Inv) : (finishFinal (absorbBlock (padBuffer s))).Inv := by
  have hclear : (Machine.clearTo s.sel (absorbBlock (padBuffer s))).Inv :=
    clearTo_inv s.sel (by simp) (by simpa using h.work) (by simpa using h.rsp_wf) (by simpa using h.out_wf)
  have := hclear.respond (responseOf_squeeze_wf (absorbBlock (padBuffer s)))
  simpa [finishFinal] using this

/-- Every command keeps the invariant. -/
theorem exec_keeps_inv {i : Instr} {s t : State} (h : s.Inv) (he : exec i s = .next t) : t.Inv := by
  rcases exec_cases he with ⟨_, _, _, rfl⟩ | ⟨_, sel, _, _, rfl⟩ | ⟨_, rfl⟩ | ⟨_, _, _, _, _, rfl⟩ | ⟨_, rfl⟩
  · exact h.respond (responseOf_nil_wf _)
  · exact (h.clearTo sel).respond (responseOf_nil_wf _)
  · exact (h.clearTo _).respond (responseOf_nil_wf _)
  · exact h.absorb _
  · exact h.final

/-- No command stops the machine (R143). -/
theorem exec_total (i : Instr) (s : State) : ∃ t, exec i s = .next t := by
  cases i with
  | init d => cases hd : selOfBits d <;> simp [exec, execInit, hd]
  | init256 => exact ⟨_, rfl⟩
  | absorb n b0 b1 b2 => exact ⟨_, rfl⟩
  | final => exact ⟨_, rfl⟩

/-- A step never stops and keeps the invariant: one case for each event, and no command is in progress (R28, R143). -/
theorem step_next_inv {s : State} (h : s.Inv) : ∃ t, step s = .next t ∧ t.Inv := by
  rcases step_cases s with ⟨_, e⟩ | ⟨hp, _⟩ | ⟨r, hd, e⟩ | ⟨_, e⟩ | ⟨w, rest, i, _, _, e⟩ | ⟨w, rest, _, _, _, e⟩
  · exact ⟨_, e, h.hardReset⟩
  · have hworking := (nextEvent_progress_inv hp).2
    rw [working_eq_false.mpr ⟨h.busy, h.work⟩] at hworking
    contradiction
  · exact ⟨_, e, h.deliver (nextEvent_deliver_inv hd).1⟩
  · exact ⟨_, e, h⟩
  · obtain ⟨t, ht⟩ := exec_total i (takeWord rest s)
    exact ⟨t, e.trans ht, exec_keeps_inv (h.takeWord rest) ht⟩
  · exact ⟨_, e, (h.takeWord rest).respond (responseOf_nil_wf _)⟩

/-- Settles O29 (R18, R143, R164): setting the pins keeps the invariant and so does the step after it, by induction on
the list of pins. -/
theorem pinDrivenRunsNeverStopAndStaySafe : Obligations.PinDrivenRunsNeverStopAndStaySafe := by
  intro ps
  induction ps with
  | nil => exact fun s h => ⟨s, rfl, h⟩
  | cons p ps ih =>
    intro s h
    obtain ⟨t, ht, hinv⟩ := step_next_inv (h.drive p)
    obtain ⟨u, hu, hinv'⟩ := ih t hinv
    exact ⟨u, by rw [runPins, ht]; exact hu, hinv'⟩

end Sys2Proof.Machine
end

section
/-! SUPPORT. The finer machine, one round a step, against the atomic command (00_scope.md R9; 10_state.md R34;
40_permutation_engine.md R92; 43_sponge_commands.md R123, R125). -/

namespace Sys2Proof.Machine

/-! ## The acceptance of a command -/

/-- A ready block offered a word accepts it (R60). -/
theorem State.Ready.nextEvent_command {s : State} {w : Word} {rest : List Word} (h : s.Ready)
    (hc : s.cmdIn = w :: rest) : s.nextEvent = .command w rest :=
  Machine.nextEvent_command h.rst h.busy h.work h.rsp hc

/-- The atomic machine runs the whole command in the step that accepts it. -/
theorem State.Ready.step_eq_exec {s : State} {w : Word} {rest : List Word} {i : Instr} (h : s.Ready)
    (hc : s.cmdIn = w :: rest) (hd : decode w = .ok i) : step s = exec i (takeWord rest s) := by
  simp [step, h.nextEvent_command hc, hd]

/-- The finer machine begins the command in that step. -/
theorem State.Ready.fineStep_eq_beginCommand {s : State} {w : Word} {rest : List Word} {i : Instr} (h : s.Ready)
    (hc : s.cmdIn = w :: rest) (hd : decode w = .ok i) : fineStep s = beginCommand i (takeWord rest s) := by
  simp [fineStep, h.nextEvent_command hc, hd]

/-- Settles O6 (R9, R60, R69). -/
theorem stepRunsTheDecodedCommand : Obligations.StepRunsTheDecodedCommand :=
  fun _ _ _ _ hready hc hd => hready.step_eq_exec hc hd

/-! ## The engine's run -/

/-- The state of a permutation of `s` in progress after `k` rounds: the lanes so far, `RND = k` and `BUSY = 1` (R92). -/
def State.atRound (s : State) (k : Nat) (hk : k ≤ 24) : State :=
  { s with lanes := roundsUpTo s.lanes k, rnd := ⟨k, Nat.lt_succ_of_le hk⟩, busy := true }

@[simp] theorem atRound_busy (s : State) (k : Nat) (hk : k ≤ 24) : (s.atRound k hk).busy = true := by unfold State.atRound; rfl
@[simp] theorem atRound_rnd (s : State) (k : Nat) (hk : k ≤ 24) : (s.atRound k hk).rnd.val = k := by unfold State.atRound; rfl
@[simp] theorem atRound_rsp (s : State) (k : Nat) (hk : k ≤ 24) : (s.atRound k hk).rsp = s.rsp := by unfold State.atRound; rfl
@[simp] theorem atRound_rst (s : State) (k : Nat) (hk : k ≤ 24) : (s.atRound k hk).rst = s.rst := by unfold State.atRound; rfl
@[simp] theorem atRound_cmdIn (s : State) (k : Nat) (hk : k ≤ 24) : (s.atRound k hk).cmdIn = s.cmdIn := by unfold State.atRound; rfl
@[simp] theorem atRound_rspOut (s : State) (k : Nat) (hk : k ≤ 24) : (s.atRound k hk).rspOut = s.rspOut := by unfold State.atRound; rfl

/-- `perm_start` is round 0 (R92). -/
theorem engineStart_eq_atRound (s : State) : engineStart s = s.atRound 0 (Nat.zero_le 24) := rfl

/-- An engine step runs the next round (R92). -/
theorem engineStep_atRound (s : State) (k : Nat) (hk : k < 24) :
    engineStep (s.atRound k hk.le) = s.atRound (k + 1) hk := by
  simp [engineStep, State.atRound, hk, roundsUpTo_succ s.lanes k hk]

/-- The completion after 24 rounds leaves what the atomic permutation leaves (R88, R92). -/
theorem engineDone_atRound (s : State) : engineDone (s.atRound 24 le_rfl) = permute s := by
  simp only [engineDone, State.atRound, permute, roundsUpTo_all]
  rfl

/-- Work in progress is carried on before anything else but reset (R164). -/
theorem fineStep_of_busy {s : State} (hr : s.rst = false) (hb : s.busy = true) : fineStep s = advance s := by
  simp [fineStep, State.nextEvent, State.working, hr, hb]

theorem fineStep_atRound (s : State) (k : Nat) (hk : k < 24) (hr : s.rst = false) :
    fineStep (s.atRound k hk.le) = s.atRound (k + 1) hk := by
  rw [fineStep_of_busy (by simpa using hr) (by simp), advance, if_pos (by simpa using hk), engineStep_atRound s k hk]

/-- After the last round the next step completes the permutation, clears the buffer and resumes the command (R92, R124). -/
theorem fineStep_atRound_last (s : State) (hr : s.rst = false) :
    fineStep (s.atRound 24 le_rfl) = resumeWork (bufClear (permute s)) := by
  rw [fineStep_of_busy (by simpa using hr) (by simp), advance, if_neg (by simp), engineDone_atRound]

/-- The last of `n + 1` fine steps. -/
theorem fineRun_succ_last (n : Nat) (s : State) : fineRun (n + 1) s = fineStep (fineRun n s) := by
  induction n generalizing s with
  | zero => rfl
  | succ n ih => exact ih (fineStep s)

/-- The fine run of a started permutation is at round `k` after `k` steps (R92). -/
theorem fineRun_engineStart (s : State) (hr : s.rst = false) (k : Nat) (hk : k ≤ 24) :
    fineRun k (engineStart s) = s.atRound k hk := by
  induction k with
  | zero => exact engineStart_eq_atRound s
  | succ k ih => rw [fineRun_succ_last, ih (by omega), fineStep_atRound s k hk hr]

/-! ## A block begun and completed -/

/-- The block that is begun is a permutation started with the work kept beside it. -/
theorem beginBlock_eq_engineStart (w : Work) (s : State) :
    beginBlock w s = engineStart { xorBlock s with work := some w } := rfl

/-- The permutation and the clearing keep the work that is left (R124). -/
theorem bufClear_permute_xorBlock (s : State) (o : Option Work) :
    bufClear (permute { xorBlock s with work := o }) = { absorbBlock s with work := o } := by
  simp only [absorbBlock, bufClear, permute]

/-- The 25 steps after a block is begun: 24 rounds and the completion, which resumes the command where the atomic
`ABSORB_BLOCK` leaves it (R92, R124). -/
theorem fineRun_beginBlock (w : Work) (s : State) (hr : s.rst = false) :
    fineRun 25 (beginBlock w s) = resumeWork { absorbBlock s with work := some w } := by
  have hr' : ({ xorBlock s with work := some w } : State).rst = false := by simpa using hr
  rw [beginBlock_eq_engineStart, fineRun_succ_last, fineRun_engineStart _ hr' 24 le_rfl, fineStep_atRound_last _ hr',
    bufClear_permute_xorBlock]

/-- In the states before the completion no command can be accepted and nothing is seen of the one in progress (R34). -/
theorem fineRun_beginBlock_frame (w : Work) (s : State) (hr : s.rst = false) (k : Nat) (hk : k ≤ 24) :
    let t := fineRun k (beginBlock w s)
    t.cmdReady = false ∧ t.rsp = s.rsp ∧ t.rspOut = s.rspOut ∧ t.cmdIn = s.cmdIn := by
  have hr' : ({ xorBlock s with work := some w } : State).rst = false := by simpa using hr
  rw [beginBlock_eq_engineStart, fineRun_engineStart _ hr' k hk]
  simp [State.cmdReady, State.working]

/-! ## The loop of `ABSORB` -/

/-- A block begun overwrites the work that was there. -/
theorem beginBlock_overwrites (w : Work) (s : State) (o : Option Work) :
    beginBlock w { s with work := o } = beginBlock w s := by
  simp only [beginBlock, engineStart, xorBlock, memReadBuf]

/-- The loop of `ABSORB` overwrites the work it resumes from. -/
theorem absorbFrom_work (bs : List Byte) (s : State) (o : Option Work) :
    absorbFrom bs { s with work := o } = absorbFrom bs s := by
  induction bs generalizing s with
  | nil => simp only [absorbFrom, finishAbsorb, respond]
  | cons b bs ih =>
    have happend : bufAppend [b] { s with work := o } = { bufAppend [b] s with work := o } := by simp only [bufAppend]
    simp only [absorbFrom, happend, beginBlock_overwrites, ih]

/-- The loop of `ABSORB` runs to its end without a permutation, as the atomic loop does, or stops at the first byte that
fills the buffer, from where the atomic loop goes on with `ABSORB_BLOCK` and the bytes left (R123). -/
theorem absorbFrom_cases (bs : List Byte) (s : State) (hw : s.work = none) :
    absorbFrom bs s = finishAbsorb (bs.foldl absorbByte s) ∨
    ∃ pre rest, pre ≠ [] ∧ bs = pre ++ rest ∧ s.buf.length + pre.length = s.sel.rate ∧
      absorbFrom bs s = beginBlock (.absorbing rest) (bufAppend pre s) ∧
      bs.foldl absorbByte s = rest.foldl absorbByte (absorbBlock (bufAppend pre s)) := by
  induction bs generalizing s with
  | nil => exact .inl (by simp [absorbFrom, finishAbsorb, respond, ← hw])
  | cons b bs ih =>
    simp only [absorbFrom, List.foldl_cons]
    by_cases hfull : s.buf.length + 1 = s.sel.rate
    · refine .inr ⟨[b], bs, by simp, rfl, hfull, ?_, ?_⟩
      · simp [hfull]
      · rw [absorbByte_of_eq s b hfull]
    · rw [if_neg (by simpa using hfull), absorbByte_of_ne s b hfull]
      rcases ih (bufAppend [b] s) hw with hend | ⟨pre, rest, -, rfl, hlen, hfine, hatomic⟩
      · exact .inl hend
      · refine .inr ⟨b :: pre, rest, by simp, rfl, ?_, ?_, ?_⟩
        · simp at hlen ⊢; omega
        · simpa [bufAppend] using hfine
        · simpa [bufAppend] using hatomic

/-- A resumed `ABSORB` whose bytes left do not fill another block ends as the atomic loop does (R123). -/
theorem resumeWork_absorbing (rest : List Byte) (s : State) (hw : s.work = none)
    (h : s.buf.length + rest.length < s.sel.rate) :
    resumeWork { s with work := some (.absorbing rest) } = finishAbsorb (rest.foldl absorbByte s) := by
  rw [← absorbFrom_of_lt rest s hw h, ← absorbFrom_work rest s (some (.absorbing rest))]
  rfl

/-- A resumed `FINAL` takes the digest and ends (R125). -/
theorem resumeWork_finalizing (s : State) (hw : s.work = none) :
    resumeWork { s with work := some .finalizing } = finishFinal s := by
  simp only [resumeWork, finishFinal, respond, clearTo, squeeze, ← hw]

/-! ## One command -/

/-- How the finer machine runs a command accepted in `s`: it ends at once as the atomic one does, or begins one block
whose completion ends it so (R92, R112). -/
theorem beginCommand_cases (i : Instr) (s : State) (hw : s.work = none) :
    (i ≠ .final ∧ exec i s = .next (beginCommand i s)) ∨
    ((∀ d, i ≠ .init d) ∧ i ≠ .init256 ∧ ∃ w bs, beginCommand i s = beginBlock w (bufAppend bs s) ∧
      exec i s = .next (resumeWork { absorbBlock (bufAppend bs s) with work := some w })) := by
  cases i with
  | init d =>
    refine .inl ⟨by simp, ?_⟩
    cases hd : selOfBits d <;> simp [exec, execInit, beginCommand, hd]
  | init256 => exact .inl ⟨by simp, rfl⟩
  | absorb n b0 b1 b2 =>
    rcases absorbFrom_cases (payload n b0 b1 b2) s hw with hend | ⟨pre, rest, -, hsplit, -, hfine, hatomic⟩
    · exact .inl ⟨by simp, by simp [exec, execAbsorb, beginCommand, hend]⟩
    · refine .inr ⟨by simp, by simp, .absorbing rest, pre, hfine, ?_⟩
      have hshort : rest.length ≤ 3 :=
        calc rest.length ≤ (pre ++ rest).length := by simp
          _ ≤ 3 := hsplit ▸ payload_length_le n b0 b1 b2
      have hrate := rate_bounds s.sel
      rw [resumeWork_absorbing rest _ (by simpa using hw) (by simp; omega), ← hatomic]
      rfl
  | final =>
    refine .inr ⟨by simp, by simp, .finalizing, pad s.buf.length s.sel.rate, rfl, ?_⟩
    rw [resumeWork_finalizing _ (by simpa using hw)]
    rfl

/-- Settles O32 (R9, R34, R92, R112, R167): a command that begins no block ends in the step that accepts it, and one
that does takes the 24 rounds and the completion besides. -/
theorem fineRunRefinesTheAtomicCommand : Obligations.FineRunRefinesTheAtomicCommand := by
  intro s w rest i hready hc hd
  have hfine : ∀ k, fineRun (k + 1) s = fineRun k (beginCommand i (takeWord rest s)) :=
    fun k => congrArg (fineRun k) (hready.fineStep_eq_beginCommand hc hd)
  have hatomic := hready.step_eq_exec hc hd
  rcases beginCommand_cases i (takeWord rest s) hready.work with
    ⟨hfinal, hend⟩ | ⟨hinit, hinit256, work, bs, hblock, hend⟩
  · refine ⟨0, .inl rfl, fun h => absurd h hfinal, fun _ _ => rfl, fun _ => rfl, ?_, fun k h1 h0 => by omega⟩
    rw [hatomic, hend, hfine]
    rfl
  · have hrst : (bufAppend bs (takeWord rest s)).rst = false := hready.rst
    refine ⟨25, .inr rfl, fun _ => rfl, fun d h => absurd h (hinit d), fun h => absurd h hinit256, ?_, ?_⟩
    · rw [hatomic, hend, hfine, hblock, fineRun_beginBlock work _ hrst]
    · intro k h1 hk
      obtain ⟨j, rfl⟩ : ∃ j, k = j + 1 := ⟨k - 1, by omega⟩
      rw [hfine, hblock]
      obtain ⟨hready', hrsp, hout, hin⟩ := fineRun_beginBlock_frame work _ hrst j (by omega)
      exact ⟨hready', hrsp.trans hready.rsp, hout, hin⟩

end Sys2Proof.Machine
end

section
/-! SUPPORT. Bytes, lanes, offsets and sizes (00_scope.md R7, R12, R13, R15; 40_permutation_engine.md R83, R91;
41_rom_tables.md R104). -/

namespace Sys2Proof.Machine

/-! ## Packed bytes -/

/-- A packed sequence has no bit above its last byte. -/
theorem packLE_toNat_lt (w : Nat) (bs : List Byte) : (packLE w bs).toNat < 2 ^ (8 * bs.length) := by
  refine Nat.lt_pow_two_of_testBit _ fun k hk => ?_
  have hbyte : bs.getD (k / 8) 0 = 0 := List.getD_eq_default _ _ (by omega)
  rw [BitVec.testBit_toNat, packLE_getLsbD, hbyte]
  simp

/-- The value of a packed sequence that fits: its first byte, and 256 times the value of the rest (R12, R43). -/
theorem packLE_cons_toNat (w : Nat) (b : Byte) (bs : List Byte) (h : 8 * (bs.length + 1) ≤ w) :
    (packLE w (b :: bs)).toNat = b.toNat + 2 ^ 8 * (packLE w bs).toNat := by
  have hfit : (packLE w bs).toNat <<< 8 < 2 ^ w :=
    calc (packLE w bs).toNat <<< 8 < 2 ^ (8 * bs.length) * 2 ^ 8 := by
          rw [Nat.shiftLeft_eq]
          exact Nat.mul_lt_mul_of_pos_right (packLE_toNat_lt w bs) (by decide)
      _ = 2 ^ (8 * (bs.length + 1)) := by rw [← Nat.pow_add]; congr 1
      _ ≤ 2 ^ w := Nat.pow_le_pow_right (by decide) h
  rw [packLE_cons, BitVec.toNat_or, BitVec.toNat_setWidth_of_le (by omega), BitVec.toNat_shiftLeft,
    Nat.mod_eq_of_lt hfit, Nat.or_comm, ← Nat.shiftLeft_add_eq_or_of_lt b.isLt, Nat.shiftLeft_eq, Nat.add_comm,
    Nat.mul_comm]

/-- The value of a packed sequence that fits is `Σ b_k · 2^(8k)` (R12, R43). -/
theorem packLE_toNat (w : Nat) (bs : List Byte) (h : 8 * bs.length ≤ w) :
    (packLE w bs).toNat = ((List.range bs.length).map fun k => (bs.getD k 0).toNat * 2 ^ (8 * k)).sum := by
  induction bs with
  | nil => simp
  | cons b bs ih =>
    rw [List.length_cons] at h ⊢
    rw [packLE_cons_toNat w b bs h, ih (by omega), List.range_succ_eq_map, List.map_cons, List.sum_cons, List.map_map,
      ← List.sum_map_mul_left]
    congr 2
    · simp
    · refine List.map_congr_left fun k _ => ?_
      simp only [Function.comp_apply, List.getD_cons_succ]
      rw [Nat.succ_eq_add_one]
      ring

/-! ## The flat vector -/

/-- Bit `j` of the flat vector is bit `j mod 64` of lane `j div 64` (R12). -/
theorem flatten_getLsbD (A : Lanes) (j : Nat) (h : j < 1600) :
    (flatten A).getLsbD j = (A[j / 64]'(by omega)).getLsbD (j % 64) := by
  have h1 : j / 8 / 8 = j / 64 := by omega
  have h2 : 8 * (j / 8 % 8) + j % 8 = j % 64 := by omega
  have h3 : j % 8 < 8 := by omega
  rw [flatten, packLE_getLsbD, stBytes_getD A (j / 8) (by omega), laneByte, BitVec.getLsbD_extractLsb']
  simp [h, h1, h2, h3]

/-- Lane `i` of the flat vector (R12). -/
theorem flatten_lane (A : Lanes) (i : Fin 25) : (flatten A).extractLsb' (64 * i.val) 64 = A[i] := by
  ext k hk
  have h1 : (64 * i.val + k) / 64 = i.val := by omega
  have h2 : (64 * i.val + k) % 64 = k := by omega
  rw [BitVec.getElem_extractLsb', flatten_getLsbD A _ (by omega)]
  simp [h1, h2, BitVec.getLsbD_eq_getElem hk]

/-- The lanes of the flat vector are the lanes (R12). -/
@[simp] theorem unflatten_flatten (A : Lanes) : unflatten (flatten A) = A :=
  lanes_ext fun i => by rw [unflatten, lanesOf_getFin, flatten_lane]

/-- Every vector is the flat vector of its lanes (R12). -/
@[simp] theorem flatten_unflatten (v : BitVec 1600) : flatten (unflatten v) = v := by
  ext j hj
  have h1 : 64 * (j / 64) + j % 64 = j := by omega
  have h2 : j % 64 < 64 := by omega
  rw [← BitVec.getLsbD_eq_getElem hj, flatten_getLsbD _ j hj]
  simp [unflatten, h1, h2, BitVec.getLsbD_eq_getElem hj]

/-- Settles O39 (R12). -/
theorem bytesAndLanesAreLittleEndian : Obligations.BytesAndLanesAreLittleEndian := by
  refine ⟨?_, fun v => rfl, stBytes_length, ?_, flatten_lane, ?_⟩
  · intro bs h8
    rw [le64, packLE_toNat 64 bs (by omega), h8]
  · intro A i k
    have h1 : (8 * i.val + k.val) / 8 = i.val := by omega
    have h2 : (8 * i.val + k.val) % 8 = k.val := by omega
    rw [stBytes_getD A _ (by omega)]
    simp [laneByte, h1, h2]
  · exact fun A k hk => packLE_byte 1600 (stBytes A) k (by omega)

/-- Settles O40 (R91): the lanes of the flat vector on `perm_in` are the lanes permuted. -/
theorem enginePortCarriesThePermutation : Obligations.EnginePortCarriesThePermutation :=
  ⟨fun A => by rw [permOut, unflatten_flatten], flatten_unflatten⟩

/-! ## Rotation -/

/-- Rotation by `n < 64` moves bit `k` to bit `k + n` modulo 64 (R13). -/
theorem rotl_getLsbD_add_mod (a : Lane) (n k : Nat) (hn : n < 64) (hk : k < 64) :
    (rotl a n).getLsbD ((k + n) % 64) = a.getLsbD k := by
  rw [rotl, BitVec.getLsbD_rotateLeft]
  by_cases hwrap : k + n < 64
  · have h1 : (k + n) % 64 = k + n := Nat.mod_eq_of_lt hwrap
    simp [Nat.mod_eq_of_lt hn, h1, hwrap]
  · have h1 : (k + n) % 64 = k + n - 64 := by omega
    have h2 : k + n - 64 < n := by omega
    have h3 : 64 - n + (k + n - 64) = k := by omega
    simp [Nat.mod_eq_of_lt hn, h1, h2, h3]

/-- The offset table of R104, row `y`, column `x`. -/
def rhoTable : Vector (Vector Nat 5) 5 :=
  #v[#v[0, 1, 62, 28, 27], #v[36, 44, 6, 55, 20], #v[3, 10, 43, 25, 39], #v[41, 45, 15, 21, 8], #v[18, 2, 61, 56, 14]]

/-- The table's entry at `(x,y)` is the offset the ROM holds for that lane (R103, R104). -/
theorem rhoTable_eq_rhoOffset : ∀ x y : Fin 5, rhoTable[y][x] = rhoOffset (laneIx x y) := by decide

/-- Settles O35 (R83, R104): RHO rotates each lane by the ROM's offset, which is the table's. -/
theorem rhoRotatesByTheOffsetTable : Obligations.RhoRotatesByTheOffsetTable := by
  intro A x y k hk table
  have hrom : table[y][x] = rhoOffset (laneIx x y) := rhoTable_eq_rhoOffset x y
  rw [rho_at, hrom]
  exact rotl_getLsbD_add_mod _ _ k (rhoOffset_lt _) hk

/-! ## Sizes -/

/-- Settles O44 (R7, R15). -/
theorem sizesAreAsTabled : Obligations.SizesAreAsTabled := by
  refine ⟨by decide, fun d => ?_⟩
  obtain ⟨-, hbuf, hlanes, -⟩ := rate_bounds d
  exact ⟨by omega, hbuf.trans_lt (by decide), dlen_lt_rate d, hbuf⟩

end Sys2Proof.Machine
end

section
/-! SUPPORT. The state of the block: the invariants of both machines, who writes the size and the lanes, and what a
command can see (10_state.md R20 to R34; 43_sponge_commands.md R121 to R127). -/

namespace Sys2Proof.Machine

/-! ## Reset -/

/-- A reset block meets the invariant, however far a command had got, if what was delivered is well-formed (R161). -/
theorem hardReset_inv {s : State} (ho : ∀ r ∈ s.rspOut, r.Wf) : (hardReset s).Inv where
  buf_lt := by simp
  busy := rfl
  work := rfl
  fresh := fun _ => ⟨rfl, rfl⟩
  rsp_wf := by simp
  out_wf := ho

/-- Settles O27 (R33): the state after reset is itself a reset state, and it has delivered nothing. -/
theorem resetMeetsTheInvariant : Obligations.ResetMeetsTheInvariant :=
  hardReset_inv (s := State.reset) (fun _ hr => absurd hr List.not_mem_nil)

/-- Settles O7 (R33). -/
theorem resetLeavesAFresh256Hasher : Obligations.ResetLeavesAFresh256Hasher :=
  ⟨fun i => zeroLanes_getElem i i.isLt, rfl, rfl, rfl, rfl, rfl, rfl, rfl, rfl, rfl⟩

/-! ## The invariant between commands -/

/-- Settles O28: the step of a state of the invariant has one answer, and that answer meets it. -/
theorem stepKeepsTheInvariant : Obligations.StepKeepsTheInvariant := by
  intro s t h ht
  obtain ⟨t', ht', hinv⟩ := step_next_inv h
  obtain rfl : t' = t := Host.Outcome.next.inj (ht'.symm.trans ht)
  exact hinv

/-- Settles O30 (R23, R27): the largest rate, 144, is below 256, so the 8 bits do not wrap. -/
theorem bufLenIsTheNumberOfBufferedBytes : Obligations.BufLenIsTheNumberOfBufferedBytes := by
  intro s h
  have hlt := h.buf_lt
  have hrate : s.sel.rate ≤ 144 := (rate_bounds s.sel).2.1
  have hlen : s.bufLen.toNat = s.buf.length := by
    rw [State.bufLen, BitVec.toNat_ofNat, Nat.mod_eq_of_lt (by omega)]
  exact ⟨hlen, by omega, by omega⟩

/-! ## The invariant of the finer machine -/

/-- A begun block, full and with at most two payload bytes left, is inside its command (R92, R123). -/
theorem beginBlock_midCommand {w : Work} {s : State} (hfull : s.buf.length = s.sel.rate) (hrsp : s.rsp = none)
    (hw : w = .finalizing ∨ ∃ rest, w = .absorbing rest ∧ rest.length < Config.maxPayload)
    (ho : ∀ r ∈ s.rspOut, r.Wf) : (beginBlock w s).MidCommand where
  busy := by simp
  buf_full := by simpa using hfull
  rsp := by simpa using hrsp
  work := by simpa using hw
  out_wf := by simpa using ho

/-- A command accepted between commands ends at once, as the atomic one does, or stops at its permutation. -/
theorem State.Inv.beginCommand {s : State} (h : s.Inv) (hrsp : s.rsp = none) (i : Instr) :
    (Machine.beginCommand i s).FineInv := by
  cases i with
  | init d =>
    rcases beginCommand_cases (.init d) s h.work with ⟨-, hexec⟩ | ⟨hinit, -⟩
    · exact .inl (exec_keeps_inv h hexec)
    · exact absurd rfl (hinit d)
  | init256 => exact .inl (exec_keeps_inv (i := .init256) h rfl)
  | absorb n b0 b1 b2 =>
    rcases absorbFrom_cases (payload n b0 b1 b2) s h.work with hend | ⟨pre, rest, hpre, hsplit, hfull, hbegin, -⟩
    · left
      rw [Machine.beginCommand, hend]
      exact h.absorb _
    · right
      have hrest : rest.length < Config.maxPayload :=
        calc rest.length < (pre ++ rest).length := by simpa using List.length_pos_iff.mpr hpre
          _ ≤ Config.maxPayload := hsplit ▸ payload_length_le n b0 b1 b2
      rw [Machine.beginCommand, hbegin]
      exact beginBlock_midCommand (by simpa using hfull) hrsp (.inr ⟨rest, rfl, hrest⟩) h.out_wf
  | final =>
    have hlt := h.buf_lt
    exact .inr (beginBlock_midCommand (by simp; omega) hrsp (.inl rfl) h.out_wf)

/-- An engine step stays inside the command: it writes the lanes and `RND` alone (R92). -/
theorem State.MidCommand.engineStep {s : State} (h : s.MidCommand) : (Machine.engineStep s).MidCommand := by
  rw [engineStep_frame]
  exact ⟨h.busy, h.buf_full, h.rsp, h.work, h.out_wf⟩

/-- Bytes absorbed that fill no block, and the end of `ABSORB`, leave the invariant whatever the phase was (R123). -/
theorem finishAbsorb_inv {s : State} (hlt : s.buf.length < s.sel.rate) (hb : s.busy = false) (hw : s.work = none)
    (ho : ∀ r ∈ s.rspOut, r.Wf) : (finishAbsorb s).Inv where
  buf_lt := hlt
  busy := hb
  work := hw
  fresh := by simp
  rsp_wf := by simpa using responseOf_nil_wf .ok
  out_wf := ho

/-- The end of `FINAL` leaves `FRESH(SEL)` with a well-formed digest response (R125). -/
theorem finishFinal_inv {s : State} (hb : s.busy = false) (hw : s.work = none) (hrsp : s.rsp = none)
    (ho : ∀ r ∈ s.rspOut, r.Wf) : (finishFinal s).Inv :=
  (clearTo_inv s.sel hb hw (by simp [hrsp]) ho).respond (responseOf_squeeze_wf s)

/-- The state with no command in progress any more. -/
def State.dropWork (s : State) : State := { s with work := none }

theorem State.eq_dropWork_of_work {s : State} {w : Work} (hw : s.work = some w) :
    s = { s.dropWork with work := some w } := by
  rw [← hw]
  rfl

/-- A resumed `FINAL` takes the digest and ends (R125). -/
theorem resumeWork_of_finalizing {s : State} (hw : s.work = some .finalizing) :
    resumeWork s = finishFinal s.dropWork :=
  (congrArg resumeWork (State.eq_dropWork_of_work hw)).trans (resumeWork_finalizing s.dropWork rfl)

/-- A resumed `ABSORB` whose bytes left do not fill another block buffers them and ends (R123). -/
theorem resumeWork_of_absorbing {s : State} {rest : List Byte} (hw : s.work = some (.absorbing rest))
    (hlt : s.buf.length + rest.length < s.sel.rate) :
    resumeWork s = finishAbsorb (bufAppend rest s.dropWork) := by
  rw [← foldl_absorbByte_of_lt rest s.dropWork hlt]
  exact (congrArg resumeWork (State.eq_dropWork_of_work hw)).trans (resumeWork_absorbing rest s.dropWork rfl hlt)

/-- The completion ends the command: the at most two bytes left do not fill another block (R92, R123). -/
theorem State.MidCommand.resume {s : State} (h : s.MidCommand) : (resumeWork (bufClear (engineDone s))).Inv := by
  rcases h.work with hfinal | ⟨rest, habsorb, hrest : rest.length < 3⟩
  · rw [resumeWork_of_finalizing (by simpa using hfinal)]
    exact finishFinal_inv rfl rfl h.rsp h.out_wf
  · have hlt : ([] ++ rest).length < s.sel.rate := by
      have hrate := (rate_bounds s.sel).1
      simp only [List.nil_append]
      omega
    rw [resumeWork_of_absorbing (by simpa using habsorb) (by simpa using hlt)]
    exact finishAbsorb_inv hlt rfl rfl h.out_wf

/-- Progress stays at the permutation while rounds remain, and ends the command after the last (R92). -/
theorem State.MidCommand.advance {s : State} (h : s.MidCommand) : (Machine.advance s).FineInv := by
  unfold Machine.advance
  split
  · exact .inr h.engineStep
  · exact .inl h.resume

/-- Asserted reset comes before everything, in the finer machine too (R161). -/
theorem fineStep_of_rst {s : State} (hr : s.rst = true) : fineStep s = hardReset s := by
  simp [fineStep, State.nextEvent, hr]

/-- The two machines differ only in the step that accepts a command. -/
theorem fineStep_cases (s : State) :
    step s = .next (fineStep s) ∨
    ∃ w rest i, s.nextEvent = .command w rest ∧ decode w = .ok i ∧ fineStep s = beginCommand i (takeWord rest s) := by
  cases he : s.nextEvent with
  | command w rest =>
    cases hd : decode w with
    | ok i => exact .inr ⟨w, rest, i, rfl, hd, by simp [fineStep, he, hd]⟩
    | error e => exact .inl (by simp [step, fineStep, he, hd])
  | reset | progress | deliver r | hold | idle => exact .inl (by simp [step, fineStep, he])

/-- Settles O33 (R27, R28, R34, R123): between commands the step is the atomic one or accepts a command; inside a command
it is a reset or progress. -/
theorem fineStepKeepsTheFineInvariant : Obligations.FineStepKeepsTheFineInvariant := by
  rintro s (h | h)
  · rcases fineStep_cases s with hstep | ⟨w, rest, i, hevent, -, hbegin⟩
    · exact .inl (stepKeepsTheInvariant s _ h hstep)
    · rw [hbegin]
      exact (h.takeWord rest).beginCommand (nextEvent_command_inv hevent).1.rsp i
  · cases hr : s.rst with
    | true =>
      rw [fineStep_of_rst hr]
      exact .inl (hardReset_inv h.out_wf)
    | false =>
      rw [fineStep_of_busy hr h.busy]
      exact h.advance

/-! ## The size -/

/-- A command that changes the size is a successful `INIT` of the new size or `INIT256` (R26). -/
theorem exec_sel {i : Instr} {s t : State} (h : exec i s = .next t) :
    t.sel = s.sel ∨ (∃ d, i = .init d ∧ d = t.sel.dbits) ∨ (i = .init256 ∧ t.sel = .d256) := by
  rcases exec_cases h with ⟨_, -, -, rfl⟩ | ⟨d, sel, hi, hd, rfl⟩ | ⟨hi, rfl⟩ | ⟨n, b0, b1, b2, -, rfl⟩ | ⟨-, rfl⟩
  · exact .inl rfl
  · exact .inr (.inl ⟨d, hi, selOfBits_some hd⟩)
  · exact .inr (.inr ⟨hi, rfl⟩)
  · exact .inl (foldl_absorbByte_frame (payload n b0 b1 b2) s).1
  · exact .inl (by simp)

/-- Settles O19 (R26): of the events of a step, only reset and an accepted command can write `SEL`. -/
theorem onlyConfigurationChangesTheSize : Obligations.OnlyConfigurationChangesTheSize := by
  intro s t ht hne
  rcases step_cases s with ⟨hreset, e⟩ | ⟨-, e⟩ | ⟨r, -, e⟩ | ⟨-, e⟩ | ⟨w, rest, i, hevent, hd, e⟩ | ⟨w, rest, _, -, -, e⟩
  all_goals rw [ht] at e
  · cases e
    exact .inl ⟨nextEvent_reset_inv hreset, rfl⟩
  · cases e
    obtain ⟨-, -, -, -, hsel⟩ := advance_frame s
    exact absurd hsel hne
  · cases e
    exact absurd rfl hne
  · cases e
    exact absurd rfl hne
  · obtain ⟨hready, hin⟩ := nextEvent_command_inv hevent
    rcases exec_sel e.symm with hkept | ⟨d, rfl, hbits⟩ | ⟨rfl, h256⟩
    · exact absurd hkept hne
    · exact .inr ⟨w, rest, hready, hin, .inl ⟨d, hd, hbits⟩⟩
    · exact .inr ⟨w, rest, hready, hin, .inr ⟨hd, h256⟩⟩
  · cases e
    exact absurd rfl hne

/-! ## The lanes -/

/-- A short byte sequence is buffered, or its first bytes complete one block and the others are buffered (R123). -/
theorem foldl_absorbByte_cases (bs : List Byte) (s : State) (hshort : bs.length ≤ 3) :
    bs.foldl absorbByte s = bufAppend bs s ∨
    ∃ pre rest, bs = pre ++ rest ∧ bs.foldl absorbByte s = bufAppend rest (absorbBlock (bufAppend pre s)) := by
  induction bs generalizing s with
  | nil => exact .inl (by simp [bufAppend])
  | cons b bs ih =>
    rw [List.length_cons] at hshort
    rw [List.foldl_cons]
    by_cases hfull : s.buf.length + 1 = s.sel.rate
    · have hrate := (rate_bounds s.sel).1
      rw [absorbByte_of_eq s b hfull, foldl_absorbByte_of_lt bs _ (by simp; omega)]
      exact .inr ⟨[b], bs, rfl, rfl⟩
    · rw [absorbByte_of_ne s b hfull]
      rcases ih (bufAppend [b] s) (by omega) with hend | ⟨pre, rest, rfl, hblock⟩
      · exact .inl (by rw [hend]; simp [bufAppend])
      · exact .inr ⟨b :: pre, rest, rfl, by rw [hblock]; simp [bufAppend]⟩

/-- A command leaves the lanes, clears them, or permutes lanes with the same capacity (R42). -/
theorem exec_lanes {i : Instr} {s t : State} (h : exec i s = .next t) :
    t.lanes = s.lanes ∨ t.lanes = zeroLanes ∨
    ∃ B : Lanes, (∀ j : Fin 25, s.sel.rlanes ≤ j.val → B[j] = s.lanes[j]) ∧ t.lanes = keccakF B := by
  rcases exec_cases h with ⟨_, -, -, rfl⟩ | ⟨_, _, -, -, rfl⟩ | ⟨-, rfl⟩ | ⟨n, b0, b1, b2, -, rfl⟩ | ⟨-, rfl⟩
  · exact .inl rfl
  · exact .inr (.inl rfl)
  · exact .inr (.inl rfl)
  · rw [finishAbsorb_lanes]
    rcases foldl_absorbByte_cases _ s (payload_length_le n b0 b1 b2) with hend | ⟨pre, rest, -, hblock⟩
    · exact .inl (by rw [hend, bufAppend_lanes])
    · refine .inr (.inr ⟨(xorBlock (bufAppend pre s)).lanes, fun j hj => ?_, ?_⟩)
      · exact xorBlock_capacity (bufAppend pre s) j j.isLt hj
      · rw [hblock, bufAppend_lanes, absorbBlock_lanes]
  · exact .inr (.inl rfl)

/-- Settles O20 (R21, R42): between commands only reset and an accepted command write the lanes. -/
theorem lanesAreWrittenOnlyAsListed : Obligations.LanesAreWrittenOnlyAsListed := by
  intro s t hidle ht
  rcases step_cases s with ⟨-, e⟩ | ⟨hprogress, e⟩ | ⟨r, -, e⟩ | ⟨-, e⟩ | ⟨w, rest, i, -, -, e⟩ | ⟨w, rest, _, -, -, e⟩
  all_goals rw [ht] at e
  · cases e
    exact .inr (.inl rfl)
  · rw [(nextEvent_progress_inv hprogress).2] at hidle
    contradiction
  · cases e
    exact .inl rfl
  · cases e
    exact .inl rfl
  · exact exec_lanes (s := takeWord rest s) e.symm
  · cases e
    exact .inl rfl

/-! ## What a command can see -/

/-- The two states hold the same lanes, buffer and size: what `Obligations.ResponsesDependOnLanesBufferAndSizeAlone`
says a command can see. -/
structure State.SameSponge (s u : State) : Prop where
  lanes : s.lanes = u.lanes
  buf : s.buf = u.buf
  sel : s.sel = u.sel

section
variable {s u : State} (h : s.SameSponge u)
include h

theorem State.SameSponge.bufAppend (bs : List Byte) : (Machine.bufAppend bs s).SameSponge (Machine.bufAppend bs u) :=
  ⟨h.lanes, congrArg (· ++ bs) h.buf, h.sel⟩

theorem State.SameSponge.absorbBlock : (Machine.absorbBlock s).SameSponge (Machine.absorbBlock u) where
  lanes := by simp only [absorbBlock_lanes, xorBlock_lanes_congr s u h.lanes h.buf h.sel]
  buf := by simp only [absorbBlock_buf]
  sel := by simpa using h.sel

theorem State.SameSponge.padBuffer : (Machine.padBuffer s).SameSponge (Machine.padBuffer u) := by
  simpa only [Machine.padBuffer, h.buf, h.sel] using h.bufAppend (pad u.buf.length u.sel.rate)

theorem State.SameSponge.absorbByte (b : Byte) : (Machine.absorbByte s b).SameSponge (Machine.absorbByte u b) := by
  by_cases hfull : s.buf.length + 1 = s.sel.rate
  · rw [absorbByte_of_eq s b hfull, absorbByte_of_eq u b (by rw [← h.buf, ← h.sel, hfull])]
    exact (h.bufAppend [b]).absorbBlock
  · rw [absorbByte_of_ne s b hfull, absorbByte_of_ne u b (by rw [← h.buf, ← h.sel]; exact hfull)]
    exact h.bufAppend [b]

/-- `SQUEEZE` reads the lanes and the size (R128). -/
theorem State.SameSponge.squeeze_eq : squeeze s = squeeze u := by
  rw [squeeze, squeeze, h.lanes, h.sel]

theorem State.SameSponge.finishFinal : (Machine.finishFinal s).SameSponge (Machine.finishFinal u) where
  lanes := by simp only [finishFinal_lanes]
  buf := by simp only [finishFinal_buf]
  sel := by simpa using h.sel

end

theorem State.SameSponge.foldl_absorbByte (bs : List Byte) {s u : State} (h : s.SameSponge u) :
    (bs.foldl Machine.absorbByte s).SameSponge (bs.foldl Machine.absorbByte u) := by
  induction bs generalizing s u with
  | nil => exact h
  | cons b bs ih => exact ih (h.absorbByte b)

/-- A command answers alike in two states it cannot tell apart, and leaves two such states. -/
theorem State.SameSponge.exec {s u : State} (h : s.SameSponge u) (i : Instr) :
    ∃ t v, Machine.exec i s = .next t ∧ Machine.exec i u = .next v ∧ t.rsp = v.rsp ∧ t.SameSponge v := by
  cases i with
  | init d =>
    cases hd : selOfBits d with
    | none =>
      exact ⟨raiseError .configurationError s, raiseError .configurationError u, by simp [Machine.exec, execInit, hd],
        by simp [Machine.exec, execInit, hd], rfl, h.lanes, h.buf, h.sel⟩
    | some sel =>
      exact ⟨respond .ok [] (clearTo sel s), respond .ok [] (clearTo sel u), by simp [Machine.exec, execInit, hd],
        by simp [Machine.exec, execInit, hd], rfl, rfl, rfl, rfl⟩
  | init256 => exact ⟨_, _, rfl, rfl, rfl, rfl, rfl, rfl⟩
  | absorb n b0 b1 b2 =>
    obtain ⟨hlanes, hbuf, hsel⟩ := h.foldl_absorbByte (payload n b0 b1 b2)
    exact ⟨_, _, rfl, rfl, rfl, hlanes, hbuf, hsel⟩
  | final =>
    have hblock := h.padBuffer.absorbBlock
    refine ⟨_, _, rfl, rfl, ?_, hblock.finishFinal⟩
    rw [finishFinal_rsp, finishFinal_rsp, hblock.squeeze_eq]

/-- Settles O21 (R24, R28, R131). -/
theorem responsesDependOnLanesBufferAndSizeAlone : Obligations.ResponsesDependOnLanesBufferAndSizeAlone := by
  intro i s u hlanes hbuf hsel
  obtain ⟨t, v, ht, hv, hrsp, hsame⟩ := (State.SameSponge.mk hlanes hbuf hsel).exec i
  exact ⟨t, v, ht, hv, hrsp, hsame.lanes, hsame.buf, hsame.sel⟩

/-! ## The phase -/

/-- The transition table of R127, for the commands: `PHASE` after the command from `PHASE` before it. -/
def phaseAfter (i : Instr) (p : Phase) : Phase :=
  match i with
  | .init d => if d ∈ [224, 256, 384, 512] then .fresh else p
  | .init256 => .fresh
  | .absorb .. => .absorbing
  | .final => .fresh

/-- Every command moves `PHASE` as the table says (R127). -/
theorem exec_phase {i : Instr} {s t : State} (h : exec i s = .next t) : t.phase = phaseAfter i s.phase := by
  rcases exec_cases h with ⟨d, rfl, hd, rfl⟩ | ⟨d, sel, rfl, hd, rfl⟩ | ⟨rfl, rfl⟩ | ⟨_, _, _, _, rfl, rfl⟩ | ⟨rfl, rfl⟩
  · exact (if_neg ((selOfBits_none_iff d).mp hd)).symm
  · have hmem : d ∈ [224, 256, 384, 512] := by
      by_contra hnot
      rw [(selOfBits_none_iff d).mpr hnot] at hd
      contradiction
    exact (if_pos hmem).symm
  · rfl
  · rfl
  · rfl

/-- Settles O16 (R24, R127). -/
theorem phaseFollowsTheTransitionTable : Obligations.PhaseFollowsTheTransitionTable := by
  intro i s
  obtain ⟨t, ht⟩ := exec_total i s
  have hphase := exec_phase ht
  refine ⟨t, ht, ?_, ?_, ?_, ?_⟩
  · rintro d rfl
    exact hphase
  · rintro rfl
    exact hphase
  · rintro n b0 b1 b2 rfl
    exact hphase
  · rintro rfl
    exact hphase

end Sys2Proof.Machine
end

section
/-! SUPPORT. Commands and the responses they leave; the sponge on the bytes still to absorb; runs of a host that takes
every response (20_memory.md R50; 30_encoding.md R60, R65, R70; 43_sponge_commands.md R123 to R129). -/

namespace Sys2Proof.Machine

/-! ## The response of a command -/

/-- A command takes nothing from the host, gives it nothing yet, and is over when it answers (R9, R50, R60). -/
theorem exec_frame {i : Instr} {s t : State} (h : exec i s = .next t) :
    t.rst = s.rst ∧ t.cmdIn = s.cmdIn ∧ t.rspReady = s.rspReady ∧ t.rspOut = s.rspOut ∧ t.work = s.work ∧
      (s.busy = false → t.busy = false) := by
  rcases exec_cases h with ⟨_, -, -, rfl⟩ | ⟨_, _, -, -, rfl⟩ | ⟨-, rfl⟩ | ⟨n, b0, b1, b2, -, rfl⟩ | ⟨-, rfl⟩
  · simp
  · simp
  · simp
  · obtain ⟨-, -, hwork, -, hrst, hin, hready, hout⟩ := foldl_absorbByte_frame (payload n b0 b1 b2) s
    exact ⟨hrst, hin, hready, hout, hwork, foldl_absorbByte_busy _ s⟩
  · simp

/-- A command answers without payload, or it is `FINAL` and answers a digest of the selected size (R70, R121 to R125). -/
theorem exec_rsp {i : Instr} {s t : State} (h : exec i s = .next t) :
    (i ≠ .final ∧ ∃ st, t.rsp = some (responseOf st [])) ∨
    (i = .final ∧ ∃ u : State, u.sel = s.sel ∧ t.rsp = some (responseOf .ok (squeeze u))) := by
  rcases exec_cases h with ⟨_, rfl, -, rfl⟩ | ⟨_, _, rfl, -, rfl⟩ | ⟨rfl, rfl⟩ | ⟨_, _, _, _, rfl, rfl⟩ | ⟨rfl, rfl⟩
  · exact .inl ⟨by simp, _, rfl⟩
  · exact .inl ⟨by simp, _, rfl⟩
  · exact .inl ⟨by simp, _, rfl⟩
  · exact .inl ⟨by simp, _, rfl⟩
  · exact .inr ⟨rfl, absorbBlock (padBuffer s), by simp, rfl⟩

/-- `LEN` of a digest response is `DLEN` (R70, R128). -/
theorem responseOf_squeeze_len (st : Status) (s : State) : (responseOf st (squeeze s)).len.toNat = s.sel.dlen := by
  have hshort := dlen_le s.sel
  rw [responseOf_len, squeeze_length]
  rw [squeeze_length]
  omega

/-- A ready block takes an illegal word and answers it with no other effect (R142). -/
theorem State.Ready.step_eq_raiseIllegalCommand {s : State} {w : Word} {rest : List Word} {e : IllegalWord}
    (h : s.Ready) (hc : s.cmdIn = w :: rest) (hd : decode w = .error e) :
    step s = .next (raiseIllegalCommand (takeWord rest s)) := by
  simp [step, h.nextEvent_command hc, hd]

/-- Settles O10 (R50, R70): an illegal word and every command but `FINAL` answer without payload. -/
theorem everyAcceptedWordGetsOneResponse : Obligations.EveryAcceptedWordGetsOneResponse := by
  intro s w rest hready hc
  cases hd : decode w with
  | error e =>
    exact ⟨_, _, hready.step_eq_raiseIllegalCommand hc hd, rfl, responseOf_nil_wf _, by simp, fun _ => ⟨rfl, rfl⟩,
      rfl, rfl, rfl, rfl, hready.busy, hready.work⟩
  | ok i =>
    obtain ⟨t, ht⟩ := exec_total i (takeWord rest s)
    obtain ⟨hrst, hin, hrspReady, hout, hwork, hbusy⟩ := exec_frame ht
    have hstep := (hready.step_eq_exec hc hd).trans ht
    rcases exec_rsp ht with ⟨hi, st, hrsp⟩ | ⟨rfl, u, hsel, hrsp⟩
    · exact ⟨t, _, hstep, hrsp, responseOf_nil_wf st, fun h => absurd (Except.ok.inj h) hi, fun _ => ⟨rfl, rfl⟩,
        hin, hout, hrst, hrspReady, hbusy hready.busy, hwork.trans hready.work⟩
    · exact ⟨t, _, hstep, hrsp, responseOf_squeeze_wf u, fun _ => (responseOf_squeeze_len .ok u).trans (congrArg _ hsel),
        fun h => absurd rfl h, hin, hout, hrst, hrspReady, hbusy hready.busy, hwork.trans hready.work⟩

/-! ## The commands of a message -/

/-- Decoding an encoded `ABSORB` gives its operands back, the ignored byte fields too (R65, R69). -/
theorem decode_encode_absorb (n : Nat) (b0 b1 b2 : Byte) (hn : n ≤ 3) :
    decode (encode (.absorb n b0 b1 b2)) = .ok (.absorb n b0 b1 b2) := by
  have hop : field (encode (.absorb n b0 b1 b2)) 28 4 = 3 :=
    (encode_op _).trans (by decide : field (0x30000000 : Word) 28 4 = 3)
  have hword := encode_absorb_toNat n b0 b1 b2
  have hb0 := b0.isLt
  have hb1 := b1.isLt
  have hb2 := b2.isLt
  have hzero : field (encode (.absorb n b0 b1 b2)) 26 2 = 0 :=
    BitVec.eq_of_toNat_eq (by rw [field_toNat, hword]; simp; omega)
  have hcount : (field (encode (.absorb n b0 b1 b2)) 24 2).toNat = n := by rw [field_toNat, hword]; omega
  have hbyte0 : field (encode (.absorb n b0 b1 b2)) 0 8 = b0 :=
    BitVec.eq_of_toNat_eq (by rw [field_toNat, hword]; omega)
  have hbyte1 : field (encode (.absorb n b0 b1 b2)) 8 8 = b1 :=
    BitVec.eq_of_toNat_eq (by rw [field_toNat, hword]; omega)
  have hbyte2 : field (encode (.absorb n b0 b1 b2)) 16 8 = b2 :=
    BitVec.eq_of_toNat_eq (by rw [field_toNat, hword]; omega)
  simp [decode, hop, hzero, hcount, hbyte0, hbyte1, hbyte2]

/-- The payload of the `ABSORB` that carries up to three bytes is those bytes (R65, R71). -/
theorem payload_getD {bs : List Byte} (h : bs.length ≤ 3) :
    payload bs.length (bs.getD 0 0) (bs.getD 1 0) (bs.getD 2 0) = bs := by
  match bs, h with
  | [], _ => rfl
  | [_], _ => rfl
  | [_, _], _ => rfl
  | [_, _, _], _ => rfl

/-- `ABSORB` of up to three bytes absorbs them one by one (R123). -/
theorem exec_absorbCommand {bs : List Byte} (h : bs.length ≤ 3) (s : State) :
    exec (absorbCommand bs) s = .next (finishAbsorb (bs.foldl absorbByte s)) := by
  conv_rhs => rw [← payload_getD h]
  rfl

/-! ## The sponge on the bytes still to absorb -/

/-- The digest of R129 from any lanes: `m` padded and absorbed block by block, then squeezed. -/
def digestFrom (sel : Sel) (A : Lanes) (m : List Byte) : List Byte :=
  memReadST (absorbBlocks sel (m.length / sel.rate + 1) (paddedMessage sel m) A) 0 sel.dlen

/-- `KECCAK[s](M)` is the digest from the zero State (R129). -/
theorem keccak_eq_digestFrom (sel : Sel) (m : List Byte) : keccak sel m = digestFrom sel zeroLanes m := rfl

theorem rate_pos (d : Sel) : 0 < d.rate := Nat.lt_of_lt_of_le (by decide) (rate_bounds d).1

/-- A whole block in front is one turn of the sponge (R129). -/
theorem digestFrom_block_append {sel : Sel} {block : List Byte} (hb : block.length = sel.rate) (A : Lanes)
    (m : List Byte) :
    digestFrom sel A (block ++ m) = digestFrom sel (keccakF (xorLanes A (blockLanes sel block))) m := by
  have hcount : (block ++ m).length / sel.rate = m.length / sel.rate + 1 := by
    rw [List.length_append, hb, Nat.add_div_left _ (rate_pos sel)]
  have hpadded : paddedMessage sel (block ++ m) = block ++ paddedMessage sel m := by
    simp [paddedMessage, hb]
  rw [digestFrom, hcount, hpadded, absorbBlocks, List.take_left' hb, List.drop_left' hb, digestFrom]

/-- Less than a block is padded to the one final block (R125, R129). -/
theorem digestFrom_of_lt {sel : Sel} {m : List Byte} (hm : m.length < sel.rate) (A : Lanes) :
    digestFrom sel A m =
      memReadST (keccakF (xorLanes A (blockLanes sel (m ++ pad m.length sel.rate)))) 0 sel.dlen := by
  have hfull : (m ++ pad m.length sel.rate).length ≤ sel.rate := by simp; omega
  rw [digestFrom, Nat.div_eq_of_lt hm, paddedMessage, Nat.mod_eq_of_lt hm, absorbBlocks, List.take_of_length_le hfull,
    absorbBlocks]

/-- Absorbing a byte moves it from the bytes to come into the block, at no change to the digest (R123, R129). -/
theorem digestFrom_absorbByte (s : State) (b : Byte) (m : List Byte) :
    digestFrom s.sel (absorbByte s b).lanes ((absorbByte s b).buf ++ m) = digestFrom s.sel s.lanes (s.buf ++ b :: m) := by
  by_cases hfull : s.buf.length + 1 = s.sel.rate
  · have hblock : (s.buf ++ [b]).length = s.sel.rate := by simpa using hfull
    have hcons : s.buf ++ b :: m = (s.buf ++ [b]) ++ m := by simp
    rw [absorbByte_of_eq s b hfull, hcons, digestFrom_block_append hblock]
    simp [xorBlock_lanes_eq]
  · rw [absorbByte_of_ne s b hfull]
    simp

/-- So does absorbing any bytes one by one. -/
theorem digestFrom_foldl_absorbByte (bs : List Byte) (s : State) :
    digestFrom s.sel (bs.foldl absorbByte s).lanes (bs.foldl absorbByte s).buf =
      digestFrom s.sel s.lanes (s.buf ++ bs) := by
  induction bs generalizing s with
  | nil => simp
  | cons b bs ih =>
    have htail := ih (absorbByte s b)
    rw [absorbByte_sel] at htail
    rw [List.foldl_cons, htail, digestFrom_absorbByte]

/-- What `FINAL` squeezes is the digest from the lanes of the bytes buffered (R125, R129). -/
theorem squeeze_final {s : State} (h : s.buf.length < s.sel.rate) :
    squeeze (absorbBlock (padBuffer s)) = digestFrom s.sel s.lanes s.buf := by
  rw [digestFrom_of_lt h, squeeze]
  simp [xorBlock_lanes_eq]

/-- What `FINAL` squeezes after any bytes absorbed by a fresh block is their `KECCAK` (R129). -/
theorem squeeze_final_foldl_absorbByte {s : State} {sel : Sel} (h : s.FreshAt sel) (bs : List Byte) :
    squeeze (absorbBlock (padBuffer (bs.foldl absorbByte s))) = keccak sel bs := by
  have hlt : s.buf.length < s.sel.rate := by simpa [h.buf] using rate_pos s.sel
  obtain ⟨hsel, -⟩ := foldl_absorbByte_frame bs s
  rw [squeeze_final (foldl_absorbByte_buf_lt bs s hlt), hsel, digestFrom_foldl_absorbByte, h.lanes, h.buf, h.sel,
    List.nil_append, keccak_eq_digestFrom]

/-! ## Runs of a host that takes every response -/

/-- A ready block whose host takes every response and has the words `ws` still to transfer (R60). -/
structure State.Offered (s : State) (ws : List Word) : Prop where
  ready : s.Ready
  rspReady : s.rspReady = true
  cmdIn : s.cmdIn = ws

/-- A run goes on from where its first step leads. -/
theorem run_succ {s t : State} (h : step s = .next t) (k : Nat) :
    Host.Core.run Sys2Proof.core (k + 1) s = Host.Core.run Sys2Proof.core k t := by
  have hcore : Sys2Proof.core.step s = .next t := h
  simp only [Host.Core.run, hcore]

/-- A pending response is delivered to a host that is ready for it (R60). -/
theorem step_of_rsp {s : State} {r : Response} (hrst : s.rst = false) (hw : s.working = false) (hr : s.rsp = some r)
    (hready : s.rspReady = true) : step s = .next (deliver r s) := by
  simp [step, State.nextEvent, hrst, hw, hr, hready]

/-- A command takes two steps, its acceptance and the delivery of its response, after which the next word is offered to
a ready block (R50, R60; log entry 1). -/
theorem State.Offered.run_command {s t : State} {w : Word} {rest : List Word} {i : Instr} {r : Response}
    (h : s.Offered (w :: rest)) (hd : decode w = .ok i) (ht : exec i (takeWord rest s) = .next t)
    (hr : t.rsp = some r) :
    (∀ k, Host.Core.run Sys2Proof.core (k + 2) s = Host.Core.run Sys2Proof.core k (deliver r t)) ∧
      (deliver r t).Offered rest ∧ (deliver r t).rspOut = s.rspOut ++ [r] := by
  obtain ⟨hready, hrspReady, hc⟩ := h
  obtain ⟨hrst, hin, hkept, hout, hwork, hbusy⟩ := exec_frame ht
  have hrst' : t.rst = false := hrst.trans hready.rst
  have hwork' : t.work = none := hwork.trans hready.work
  have hbusy' : t.busy = false := hbusy hready.busy
  have hrspReady' : t.rspReady = true := hkept.trans hrspReady
  have hdeliver := step_of_rsp hrst' (working_eq_false.mpr ⟨hbusy', hwork'⟩) hr hrspReady'
  refine ⟨fun k => ?_, ⟨⟨hrst', hbusy', hwork', rfl⟩, hrspReady', hin⟩, congrArg (· ++ [r]) hout⟩
  rw [run_succ ((hready.step_eq_exec hc hd).trans ht), run_succ hdeliver]

/-- The words offered are no part of what a command can see. -/
theorem State.SameSponge.takeWord {s u : State} (h : s.SameSponge u) (rest : List Word) :
    (Machine.takeWord rest s).SameSponge u :=
  ⟨h.lanes, h.buf, h.sel⟩

/-- A run of `ABSORB` commands delivers one OK for each, and leaves what a state `u` it could not tell apart is left with
once the bytes of all the chunks have been absorbed one by one (R123). -/
theorem State.Offered.run_absorbs {chunks : List (List Byte)} (hshort : ∀ c ∈ chunks, c.length ≤ 3) {s u : State}
    {rest : List Word} (h : s.Offered (chunks.map (fun c => encode (absorbCommand c)) ++ rest))
    (hsame : s.SameSponge u) :
    ∃ t : State,
      (∀ k, Host.Core.run Sys2Proof.core (k + 2 * chunks.length) s = Host.Core.run Sys2Proof.core k t) ∧
      t.Offered rest ∧ t.rspOut = s.rspOut ++ List.replicate chunks.length ⟨.ok, 0, 0⟩ ∧
      t.SameSponge (chunks.flatten.foldl absorbByte u) := by
  induction chunks generalizing s u with
  | nil => exact ⟨s, fun k => rfl, h, by simp, hsame⟩
  | cons c chunks ih =>
    obtain ⟨hc, hchunks⟩ := List.forall_mem_cons.mp hshort
    obtain ⟨hrun, hnext, hout⟩ := h.run_command (decode_encode_absorb _ _ _ _ hc) (exec_absorbCommand hc _) rfl
    obtain ⟨hlanes, hbuf, hsel⟩ := (hsame.takeWord _).foldl_absorbByte c
    obtain ⟨t, hrun', hoffered, hout', hsame'⟩ := ih hchunks hnext ⟨hlanes, hbuf, hsel⟩
    refine ⟨t, fun k => (hrun _).trans (hrun' k), hoffered, ?_, ?_⟩
    · rw [hout', hout, List.length_cons, List.replicate_succ, List.append_assoc, List.singleton_append,
        responseOf_nil]
    · rwa [List.flatten_cons, List.foldl_append]

/-- Settles O23 (R50, R129): the `ABSORB` commands absorb the bytes of the message, and `FINAL` squeezes their digest. -/
theorem runOfAMessageAnswersItsDigest : Obligations.RunOfAMessageAnswersItsDigest := by
  intro sel s chunks hshort hfresh hready hrspReady hc
  obtain ⟨t, hrun, hoffered, hout, hsame⟩ :=
    (State.Offered.mk hready hrspReady hc).run_absorbs hshort (u := s) ⟨rfl, rfl, rfl⟩
  obtain ⟨hrun', hdone, hout'⟩ := hoffered.run_command (i := .final) (by decide) rfl rfl
  have hdigest : squeeze (absorbBlock (padBuffer (takeWord [] t))) = keccak sel chunks.flatten :=
    (hsame.takeWord []).padBuffer.absorbBlock.squeeze_eq.trans (squeeze_final_foldl_absorbByte hfresh _)
  have hsel : t.sel = sel := hsame.sel.trans ((foldl_absorbByte_frame _ s).1.trans hfresh.sel)
  rw [Nat.mul_add_one, Nat.add_comm _ 2]
  refine ⟨_, (hrun 2).trans (hrun' 0), ⟨rfl, rfl, ?_, rfl, ?_⟩, hdone.ready, hdone.cmdIn, ?_⟩
  · simpa using hsel
  · simp
  · rw [hout', hout, hdigest]

end Sys2Proof.Machine
end

section
/-! SUPPORT. The decoder, the encoder and the command table (30_encoding.md R61 to R69). -/

namespace Sys2Proof

/-! ## Decoding, said once in numbers -/

/-- A field holds `k` when the word's bits there, as a number, are `k`. -/
theorem field_eq_iff (w : Word) (lo len : Nat) (k : BitVec len) :
    field w lo len = k ↔ w.toNat / 2 ^ lo % 2 ^ len = k.toNat := by
  rw [← BitVec.toNat_inj, field_toNat]

/-- `OP`, the topmost field, is the word divided by `2^28` (R61). -/
theorem op_eq_iff (w : Word) (k : BitVec 4) : field w 28 4 = k ↔ w.toNat / 2 ^ 28 = k.toNat := by
  have hw := w.isLt
  rw [field_eq_iff]
  omega

/-- The decoder's tests, on the word as a number (R68, R69). -/
theorem decode_eq_on_number (w : Word) :
    decode w =
      if w.toNat / 2 ^ 28 = 1 then
        if w.toNat / 2 ^ 16 % 2 ^ 12 = 0 then .ok (.init (field w 0 16).toNat) else .error .zero12
      else if w.toNat / 2 ^ 28 = 2 then
        if w.toNat % 2 ^ 28 = 0 then .ok .init256 else .error .zero28
      else if w.toNat / 2 ^ 28 = 3 then
        if w.toNat / 2 ^ 26 % 4 = 0 then
          .ok (.absorb (field w 24 2).toNat (field w 0 8) (field w 8 8) (field w 16 8))
        else .error .zero2
      else if w.toNat / 2 ^ 28 = 4 then
        if w.toNat % 2 ^ 28 = 0 then .ok .final else .error .zero28
      else .error .unassignedOp := by
  simp only [decode, op_eq_iff]
  simp [field_eq_iff]

/-- The words that decode, and what each decodes to (R62 to R66). -/
theorem decode_ok_cases {w : Word} {i : Instr} (h : decode w = .ok i) :
    (w.toNat / 2 ^ 28 = 1 ∧ w.toNat / 2 ^ 16 % 2 ^ 12 = 0 ∧ i = .init (field w 0 16).toNat) ∨
    (w.toNat = 2 * 2 ^ 28 ∧ i = .init256) ∨
    (w.toNat / 2 ^ 28 = 3 ∧ w.toNat / 2 ^ 26 % 4 = 0 ∧
      i = .absorb (field w 24 2).toNat (field w 0 8) (field w 8 8) (field w 16 8)) ∨
    (w.toNat = 4 * 2 ^ 28 ∧ i = .final) := by
  rw [decode_eq_on_number] at h
  split_ifs at h with hinit hzero12 hinit256 hzero28 habsorb hzero2 hfinal hzero28
  all_goals cases h
  · exact .inl ⟨hinit, hzero12, rfl⟩
  · exact .inr (.inl ⟨by omega, rfl⟩)
  · exact .inr (.inr (.inl ⟨habsorb, hzero2, rfl⟩))
  · exact .inr (.inr (.inr ⟨by omega, rfl⟩))

/-- The words that do not decode (R68). -/
theorem decode_error_iff (w : Word) :
    (∃ e, decode w = .error e) ↔
      (w.toNat / 2 ^ 28 = 0 ∨ 5 ≤ w.toNat / 2 ^ 28) ∨
      (w.toNat / 2 ^ 28 = 1 ∧ w.toNat / 2 ^ 16 % 2 ^ 12 ≠ 0) ∨
      (w.toNat / 2 ^ 28 = 2 ∧ w.toNat % 2 ^ 28 ≠ 0) ∨
      (w.toNat / 2 ^ 28 = 3 ∧ w.toNat / 2 ^ 26 % 4 ≠ 0) ∨
      (w.toNat / 2 ^ 28 = 4 ∧ w.toNat % 2 ^ 28 ≠ 0) := by
  constructor
  · rintro ⟨e, he⟩
    rw [decode_eq_on_number] at he
    split_ifs at he
    all_goals cases he
    all_goals omega
  · intro hlisted
    cases hd : decode w with
    | ok i => rcases decode_ok_cases hd with ⟨_, _, _⟩ | ⟨_, _⟩ | ⟨_, _, _⟩ | ⟨_, _⟩ <;> omega
    | error e => exact ⟨e, rfl⟩

/-! ## The two round trips -/

/-- Settles O1 (R63 to R66, R69): of an encoded command the decoder sees the opcode, the zero bits and the operands. -/
theorem decodeOfEncodeIsTheCommand : Obligations.DecodeOfEncodeIsTheCommand := by
  intro i hwf
  cases i with
  | init d =>
    have hd : d < 65536 := of_decide_eq_true hwf
    have hword := encode_init_toNat d
    have himm : (field (encode (.init d)) 0 16).toNat = d := by rw [field_toNat, hword]; omega
    rw [decode_eq_on_number, if_pos (by omega), if_pos (by omega), himm]
  | init256 => decide
  | absorb n b0 b1 b2 => exact Machine.decode_encode_absorb n b0 b1 b2 (of_decide_eq_true hwf)
  | final => decide

/-- Settles O2 (R61, R69): the fields the decoder reads and the bits it checks are the whole word. -/
theorem encodeOfDecodeIsTheWord : Obligations.EncodeOfDecodeIsTheWord := by
  intro w i h
  rcases decode_ok_cases h with ⟨hop, hzero, rfl⟩ | ⟨hw, rfl⟩ | ⟨hop, hzero, rfl⟩ | ⟨hw, rfl⟩
  · refine ⟨decide_eq_true (field w 0 16).isLt, BitVec.eq_of_toNat_eq ?_⟩
    rw [encode_init_toNat, field_toNat]
    omega
  · exact ⟨rfl, BitVec.eq_of_toNat_eq hw.symm⟩
  · refine ⟨decide_eq_true (Nat.le_of_lt_succ (field w 24 2).isLt), BitVec.eq_of_toNat_eq ?_⟩
    simp only [encode_absorb_toNat, field_toNat]
    omega
  · exact ⟨rfl, BitVec.eq_of_toNat_eq hw.symm⟩

/-! ## The mask/match table -/

/-- A row that accepts a word fixes every field its mask covers (R62). -/
theorem field_of_accepts {r : OpRow} {w : Word} (h : r.accepts w = true) {lo len : Nat}
    (hcover : field r.mask lo len = BitVec.allOnes len) : field w lo len = field r.pattern lo len := by
  have hand : field (w &&& r.mask) lo len = field w lo len &&& field r.mask lo len := BitVec.extractLsb'_and
  rw [← eq_of_beq h, hand, hcover, BitVec.and_allOnes]

/-- A row of the table accepts a word exactly when its mask leaves its pattern (R62). -/
theorem accepts_iff {r : OpRow} {w : Word} : r.accepts w = true ↔ w &&& r.mask = r.pattern := beq_iff_eq

/-- The encoding of a command is accepted by its own row and by no other (R62). -/
theorem encodesInRow (i : Instr) : Laws.EncodesInRow.Statement i := by
  cases i with
  | init d => exact Laws.EncodesInRow.init d
  | init256 => exact Laws.EncodesInRow.init256
  | absorb n b0 b1 b2 => exact Laws.EncodesInRow.absorb n b0 b1 b2
  | final => exact Laws.EncodesInRow.final

/-- A word a row accepts decodes to a command of the row: the mask covers the opcode and the bits that must be 0
(R62, R69). -/
theorem decode_of_accepts {r : OpRow} (hr : r ∈ opTable) {w : Word} (h : r.accepts w = true) :
    ∃ i, decode w = .ok i ∧ i.row = r := by
  have hop := op_of_accepts hr h
  simp only [opTable, List.mem_cons, List.not_mem_nil, or_false] at hr
  rcases hr with rfl | rfl | rfl | rfl
  · have hzero := field_of_accepts h (lo := 16) (len := 12) (by decide)
    exact ⟨.init (field w 0 16).toNat, by rw [decode, hop, hzero]; rfl, rfl⟩
  · have hzero := field_of_accepts h (lo := 0) (len := 28) (by decide)
    exact ⟨.init256, by rw [decode, hop, hzero]; rfl, rfl⟩
  · have hzero := field_of_accepts h (lo := 26) (len := 2) (by decide)
    exact ⟨.absorb (field w 24 2).toNat (field w 0 8) (field w 8 8) (field w 16 8),
      by rw [decode, hop, hzero]; rfl, rfl⟩
  · have hzero := field_of_accepts h (lo := 0) (len := 28) (by decide)
    exact ⟨.final, by rw [decode, hop, hzero]; rfl, rfl⟩

/-- A row of the table accepts a word exactly when the word decodes to a command of the row (R62). -/
theorem accepts_iff_decode {r : OpRow} (hr : r ∈ opTable) (w : Word) :
    r.accepts w = true ↔ ∃ i, decode w = .ok i ∧ i.row = r := by
  refine ⟨decode_of_accepts hr, ?_⟩
  rintro ⟨i, hd, rfl⟩
  rw [← (encodeOfDecodeIsTheWord w i hd).2, encodesInRow i _ hr, decide_eq_true rfl]

/-- Settles O3 (R62): a row accepts the words that decode to its commands, and the rows differ in their opcodes. -/
theorem decodeAgreesWithMaskAndMatch : Obligations.DecodeAgreesWithMaskAndMatch := by
  intro w
  simp only [ne_eq, ← accepts_iff]
  refine ⟨fun r hr => accepts_iff_decode hr w, fun r hr r' hr' h h' => ?_, fun hnone => ?_, ?_⟩
  · exact row_of_op r hr r' hr' ((op_of_accepts hr h).symm.trans (op_of_accepts hr' h'))
  · cases hd : decode w with
    | ok i => exact absurd ((accepts_iff_decode (row_mem i) w).mpr ⟨i, hd, rfl⟩) (hnone i.row (row_mem i))
    | error e => exact ⟨e, rfl⟩
  · rintro ⟨e, he⟩ r hr h
    obtain ⟨i, hd, -⟩ := decode_of_accepts hr h
    simp [he] at hd

/-- Settles O5 (R63 to R66). -/
theorem wordsOfTheSpecDecode : Obligations.WordsOfTheSpecDecode :=
  ⟨by decide, by decide, by decide, by decide, by decide, by decide⟩

end Sys2Proof
end

section
/-! SUPPORT. The steps between commands: illegal words, the handshakes, waiting (30_encoding.md R60, R68;
60_exceptions.md R142, R152; 70_reset_and_hazards.md R164). -/

namespace Sys2Proof.Machine

/-- Settles O4 (R68, R142). -/
theorem illegalWordsAreExactlyThoseListed : Obligations.IllegalWordsAreExactlyThoseListed := by
  refine fun w => ⟨decode_error_iff w, ?_⟩
  rintro s rest hready hc ⟨e, he⟩
  exact ⟨hready.step_eq_raiseIllegalCommand hc he, rfl⟩

/-- A word is accepted only on the handshake of the command port, and it is the first one offered (R60). -/
theorem nextEvent_command_handshake {s : State} {w : Word} {rest : List Word} (h : s.nextEvent = .command w rest) :
    s.cmdReady = true ∧ s.cmdValid = true ∧ s.cmdIn = w :: rest := by
  obtain ⟨⟨hrst, hbusy, hwork, hrsp⟩, hc⟩ := nextEvent_command_inv h
  exact ⟨by simp [State.cmdReady, State.working, hrst, hbusy, hwork, hrsp], by simp [State.cmdValid, hc], hc⟩

/-- Settles O11 (R60): of the events of a step, only an accepted command takes a word and only a delivery gives a
response. -/
theorem transfersHappenOnlyOnTheHandshakes : Obligations.TransfersHappenOnlyOnTheHandshakes := by
  intro s t ht
  rcases step_cases s with ⟨-, e⟩ | ⟨-, e⟩ | ⟨r, hevent, e⟩ | ⟨-, e⟩ | ⟨w, rest, i, hevent, -, e⟩ |
    ⟨w, rest, _, hevent, -, e⟩
  all_goals rw [ht] at e
  · cases e
    exact ⟨absurd rfl, absurd rfl, rfl, rfl⟩
  · cases e
    obtain ⟨hin, hout, hrst, hrspReady, -⟩ := advance_frame s
    exact ⟨absurd hin, absurd hout, hrst, hrspReady⟩
  · cases e
    obtain ⟨hr, hrspReady, -, -⟩ := nextEvent_deliver_inv hevent
    exact ⟨absurd rfl, fun _ => ⟨by simp [State.rspValid, hr], hrspReady, r, hr, rfl, rfl⟩, rfl, rfl⟩
  · cases e
    exact ⟨absurd rfl, absurd rfl, rfl, rfl⟩
  · obtain ⟨hcmdReady, hcmdValid, hc⟩ := nextEvent_command_handshake hevent
    obtain ⟨hrst, hin, hrspReady, hout, -, -⟩ := exec_frame e.symm
    have hfirst : s.cmdIn = w :: t.cmdIn := by rw [hin]; exact hc
    exact ⟨fun _ => ⟨hcmdReady, hcmdValid, w, hfirst⟩, absurd hout, hrst, hrspReady⟩
  · cases e
    obtain ⟨hcmdReady, hcmdValid, hc⟩ := nextEvent_command_handshake hevent
    exact ⟨fun _ => ⟨hcmdReady, hcmdValid, w, hc⟩, absurd rfl, rfl, rfl⟩

/-- A pending response is held while the host does not take it (R164). -/
theorem step_of_rsp_held {s : State} {r : Response} (hrst : s.rst = false) (hw : s.working = false)
    (hr : s.rsp = some r) (hready : s.rspReady = false) : step s = .next s := by
  simp [step, State.nextEvent, hrst, hw, hr, hready]

/-- A block with nothing to do waits (R152). -/
theorem step_of_idle {s : State} (hrst : s.rst = false) (hw : s.working = false) (hr : s.rsp = none)
    (hc : s.cmdIn = []) : step s = .next s := by
  simp [step, State.nextEvent, hrst, hw, hr, hc]

/-- Settles O9 (R60, R152, R164). -/
theorem blockHoldsDeliversAndWaits : Obligations.BlockHoldsDeliversAndWaits :=
  fun _ hrst hw =>
    ⟨fun _ => step_of_rsp_held hrst hw, fun _ => step_of_rsp hrst hw, step_of_idle hrst hw⟩

end Sys2Proof.Machine
end

section
/-! SUPPORT. The pseudo-instructions: the bytes three at a time, and the hashes run from their expansions
(30_encoding.md R71, R72; 43_sponge_commands.md R121, R122, R129, R132). -/

namespace Sys2Proof.Machine

/-! ## The groups of `ABSORBS` -/

/-- The groups are the bytes in order (R72). -/
@[simp] theorem groupsOfThree_flatten (bs : List Byte) : (groupsOfThree bs).flatten = bs := by
  induction bs using groupsOfThree.induct with
  | case1 | case2 | case3 => rfl
  | case4 a b c rest ih => simp [groupsOfThree, ih]

/-- There are `⌈L/3⌉` groups (R72). -/
theorem groupsOfThree_length (bs : List Byte) : (groupsOfThree bs).length = (bs.length + 2) / 3 := by
  induction bs using groupsOfThree.induct with
  | case1 | case2 | case3 => simp [groupsOfThree]
  | case4 a b c rest ih =>
    simp only [groupsOfThree, List.length_cons, ih]
    omega

/-- No group has more than three bytes (R72). -/
theorem length_le_of_mem_groupsOfThree (bs : List Byte) : ∀ g ∈ groupsOfThree bs, g.length ≤ 3 := by
  induction bs using groupsOfThree.induct with
  | case1 | case2 | case3 => simp [groupsOfThree]
  | case4 a b c rest ih => simpa [groupsOfThree] using ih

/-- Every group but the last has three bytes (R72). -/
theorem length_of_mem_dropLast_groupsOfThree (bs : List Byte) :
    ∀ g ∈ (groupsOfThree bs).dropLast, g.length = 3 := by
  induction bs using groupsOfThree.induct with
  | case1 | case2 | case3 => simp [groupsOfThree]
  | case4 a b c rest ih =>
    intro g hg
    cases hrest : groupsOfThree rest with
    | nil => simp [groupsOfThree, hrest] at hg
    | cons g' gs =>
      rw [groupsOfThree, hrest, List.dropLast_cons_cons, ← hrest] at hg
      rcases List.mem_cons.mp hg with rfl | hg
      · rfl
      · exact ih g hg

/-- Settles O45 (R71, R72): the count and the order are those of the groups, and a group of at most three bytes is the
payload of its command. -/
theorem absorbsTakesTheBytesThreeAtATime : Obligations.AbsorbsTakesTheBytesThreeAtATime := by
  intro bs
  have hshort := length_le_of_mem_groupsOfThree bs
  refine ⟨rfl, groupsOfThree_flatten bs, ?_, ?_, length_of_mem_dropLast_groupsOfThree bs,
    fun g hg => payload_getD (hshort g hg)⟩
  · rw [expandAbsorbs, List.length_map, groupsOfThree_length]
  · intro i hi
    obtain ⟨g, hg, rfl⟩ := List.mem_map.mp hi
    exact decide_eq_true (hshort g hg)

/-! ## The hashes -/

/-- The words of `ABSORBS` and `FINAL`, offered to a fresh ready block, run to the digest of the bytes and a fresh block
(R129). -/
theorem State.Offered.run_absorbs_final {s : State} {sel : Sel} {m : List Byte}
    (h : s.Offered ((expandAbsorbs m ++ [Instr.final]).map encode)) (hfresh : s.FreshAt sel) :
    ∃ t : State, Host.Core.run Sys2Proof.core (2 * ((expandAbsorbs m).length + 1)) s = .next t ∧
      t.rspOut.getLast? = some (responseOf .ok (keccak sel m)) ∧ t.FreshAt sel := by
  obtain ⟨t, hrun, hfresh', -, -, hout⟩ :=
    runOfAMessageAnswersItsDigest sel s (groupsOfThree m) (length_le_of_mem_groupsOfThree m) hfresh h.ready h.rspReady
      (by simp [h.cmdIn, expandAbsorbs])
  rw [groupsOfThree_flatten] at hout
  refine ⟨t, ?_, ?_, hfresh'⟩
  · rwa [expandAbsorbs, List.length_map]
  · rw [hout, List.getLast?_concat]

/-- A command that clears the block to size `sel`, whatever message was in progress, and then `ABSORBS` and `FINAL` run
to the digest at that size (R121, R122, R129). -/
theorem State.Offered.run_hash {s : State} {sel : Sel} {m : List Byte} {i : Instr} (hwf : i.wf = true)
    (hclear : ∀ u : State, exec i u = .next (respond .ok [] (clearTo sel u)))
    (h : s.Offered ((i :: (expandAbsorbs m ++ [Instr.final])).map encode)) :
    ∃ t : State, Host.Core.run Sys2Proof.core (2 * (i :: (expandAbsorbs m ++ [Instr.final])).length) s = .next t ∧
      t.rspOut.getLast? = some (responseOf .ok (keccak sel m)) ∧ t.FreshAt sel := by
  obtain ⟨hrun, hoffered, -⟩ := h.run_command (decodeOfEncodeIsTheCommand i hwf) (hclear _) rfl
  obtain ⟨t, hrun', hout, hfresh⟩ := hoffered.run_absorbs_final (sel := sel) ⟨rfl, rfl, rfl, rfl, h.ready.busy⟩
  have hcount : 2 * (i :: (expandAbsorbs m ++ [Instr.final])).length = 2 * ((expandAbsorbs m).length + 1) + 2 := by
    simp only [List.length_cons, List.length_append, List.length_nil]
    omega
  exact ⟨t, hcount ▸ (hrun _).trans hrun', hout, hfresh⟩

/-- `INIT` of a size's number of bits selects that size (R121). -/
@[simp] theorem selOfBits_dbits (sel : Sel) : selOfBits sel.dbits = some sel := by cases sel <;> rfl

/-- Settles O25 (R72, R132): `INIT256` clears the block to 256 bits, and reset has left it so. -/
theorem oneShotHelperHashesTheMessage : Obligations.OneShotHelperHashesTheMessage :=
  fun _ =>
    ⟨fun _ hready hrspReady hc => State.Offered.run_hash rfl (fun _ => rfl) ⟨hready, hrspReady, hc⟩,
      State.Offered.run_absorbs_final ⟨⟨rfl, rfl, rfl, rfl⟩, rfl, rfl⟩ ⟨rfl, rfl, rfl, rfl, rfl⟩⟩

/-- Settles O26 (R72, R121, R129): `INIT` of a supported size clears the block to that size. -/
theorem hashPseudoInstructionHashesTheMessage : Obligations.HashPseudoInstructionHashesTheMessage := by
  intro sel m s hready hrspReady hc
  have hwf : (Instr.init sel.dbits).wf = true := by cases sel <;> rfl
  have hclear (u : State) : exec (.init sel.dbits) u = .next (respond .ok [] (clearTo sel u)) := by
    simp [exec, execInit]
  exact State.Offered.run_hash hwf hclear ⟨hready, hrspReady, hc⟩

end Sys2Proof.Machine
end

section
/-! SUPPORT. The permutation engine: its run from `perm_start` to the completion, and the step mappings lane by lane
(40_permutation_engine.md R82 to R92). -/

namespace Sys2Proof.Machine

/-! ## The engine's run -/

/-- `k` engine steps after `perm_start` the permutation is at round `k` (R92). -/
theorem iterate_engineStep_engineStart (s : State) (k : Nat) (hk : k ≤ 24) :
    engineStep^[k] (engineStart s) = s.atRound k hk := by
  induction k with
  | zero => exact engineStart_eq_atRound s
  | succ k ih => rw [Function.iterate_succ_apply', ih (by omega), engineStep_atRound s k hk]

/-- After the last round no engine step is enabled (R92). -/
theorem engineStep_of_rnd_eq {s : State} (h : s.rnd.val = 24) : engineStep s = s := by
  simp [engineStep, h]

/-- Settles O31 (R88, R92), by induction on the rounds: after `k` engine steps the state is that of round `k`. -/
theorem engineRunIsThePermutation : Obligations.EngineRunIsThePermutation := by
  intro s
  refine ⟨fun k hk => ?_, ?_, ?_⟩
  · rw [iterate_engineStep_engineStart s k hk]
    exact ⟨atRound_busy s k hk, atRound_rnd s k hk⟩
  · rw [iterate_engineStep_engineStart s 24 le_rfl, engineDone_atRound]
    rfl
  · rw [iterate_engineStep_engineStart s 24 le_rfl]
    exact engineStep_of_rnd_eq (atRound_rnd s 24 le_rfl)

/-! ## PI -/

/-- Writing lane `i` of `A` to position `d i`, for each `i` of a list in turn: with `d` injective no write is overwritten
by that of another lane. -/
theorem foldl_set_getFin {d : Fin 25 → Fin 25} (hd : Function.Injective d) (A : Lanes) (is : List (Fin 25)) (B : Lanes)
    (i : Fin 25) :
    (is.foldl (fun B j => B.set (d j) A[j]) B)[d i] = if i ∈ is then A[i] else B[d i] := by
  induction is generalizing B with
  | nil => rfl
  | cons j is ih =>
    rw [List.foldl_cons, ih]
    by_cases hij : i = j
    · simp [hij]
    · have hne : (d j).val ≠ (d i).val := fun h => hij (hd (Fin.ext h)).symm
      simp [hij, Vector.getElem_set_ne, hne]

/-- π writes lane `i` to the position the ROM gives for it (R84, R103). -/
theorem pi_getFin_piDest (A : Lanes) (i : Fin 25) : (pi A)[piDest i] = A[i] := by
  rw [pi, foldl_set_getFin piDest_injective, if_pos (List.mem_finRange i)]

/-- Settles O34 (R84). -/
theorem piRelocatesEveryLane : Obligations.PiRelocatesEveryLane := by
  intro A x y
  have hmove := pi_getFin_piDest A (laneIx x y)
  simpa only [laneAt, piDest_laneIx] using hmove

/-- π at `(x,y)`: the lane that comes there is the one at `(x+3y, x)` (R84). -/
theorem pi_at (A : Lanes) (x y : Fin 5) : laneAt (pi A) x y = laneAt A (x + 3 * y) x := by
  have hdest : ∀ x y : Fin 5, 2 * (x + 3 * y) + 3 * x = y := by decide
  have hmove := piRelocatesEveryLane A (x + 3 * y) x
  rwa [hdest x y] at hmove

/-! ## The round -/

/-- ι at `(x,y)`: an XOR with the round constant at (0,0), and with nothing elsewhere (R86). -/
theorem iota_at (A : Lanes) (ir : Fin 24) (x y : Fin 5) :
    laneAt (iota A ir) x y = laneAt A x y ^^^ (if x = 0 ∧ y = 0 then rc ir else 0) := by
  have horigin : (laneIx x y).val = 0 ↔ x = 0 ∧ y = 0 := by
    simp only [laneIx, Fin.ext_iff, Fin.val_zero]
    omega
  rw [laneAt, laneAt, Fin.getElem_fin, iota_getElem]
  simp only [horigin]
  split <;> simp

/-- Settles O36 (R85, R86, R87, R89): the laws of ι, χ, π and ρ, one after another. -/
theorem roundIsItsFusedForm : Obligations.RoundIsItsFusedForm := by
  intro A ir x y T B
  have hB (x y : Fin 5) : laneAt (pi (rho T)) x y = B x y := by rw [pi_at, rho_at]
  rw [keccakRound, iota_at, chi_at, hB, hB, hB]

/-! ## THETA -/

/-- The parity of column `x` (R82). -/
theorem columnParity_getFin (A : Lanes) (x : Fin 5) :
    (columnParity A)[x] = laneAt A x 0 ^^^ laneAt A x 1 ^^^ laneAt A x 2 ^^^ laneAt A x 3 ^^^ laneAt A x 4 :=
  columnParity_getElem A x.val x.isLt

/-- Settles O37 (R82). -/
theorem thetaXorsTheColumnParities : Obligations.ThetaXorsTheColumnParities := by
  intro A x y C
  have hleft : ∀ x : Fin 5, x + 4 = x - 1 := by decide
  rw [theta_at, columnParity_getFin, columnParity_getFin, hleft]

/-! ## Linearity -/

/-- The column parities are linear over XOR (R90). -/
theorem columnParity_xorLanes (A B : Lanes) (x : Fin 5) :
    (columnParity (xorLanes A B))[x] = (columnParity A)[x] ^^^ (columnParity B)[x] := by
  simp only [columnParity_getFin, laneAt_xorLanes]
  ac_rfl

/-- θ is linear over XOR (R90). -/
theorem theta_xorLanes (A B : Lanes) : theta (xorLanes A B) = xorLanes (theta A) (theta B) := by
  refine lanes_ext_at fun x y => ?_
  simp only [theta_at, laneAt_xorLanes, columnParity_xorLanes, rotl_xor]
  ac_rfl

/-- ρ is linear over XOR (R90). -/
theorem rho_xorLanes (A B : Lanes) : rho (xorLanes A B) = xorLanes (rho A) (rho B) :=
  lanes_ext_at fun x y => by simp only [rho_at, laneAt_xorLanes, rotl_xor]

/-- π is linear over XOR (R90). -/
theorem pi_xorLanes (A B : Lanes) : pi (xorLanes A B) = xorLanes (pi A) (pi B) :=
  lanes_ext_at fun x y => by simp only [pi_at, laneAt_xorLanes]

/-- ι is the XOR with a constant State (R90). -/
theorem iota_eq_xorLanes (A : Lanes) (ir : Fin 24) : iota A ir = xorLanes A (iota zeroLanes ir) := by
  have hzero (x y : Fin 5) : laneAt zeroLanes x y = 0 := zeroLanes_getElem _ (laneIx x y).isLt
  exact lanes_ext_at fun x y => by simp [iota_at, hzero]

/-- χ is not linear over XOR (R85, R90): a bit in lane (1,0) masks the bit of lane (2,0) that would reach lane (0,0). -/
theorem chi_xorLanes_ne : chi (xorLanes (zeroLanes.set 1 1) (zeroLanes.set 2 1)) ≠
    xorLanes (chi (zeroLanes.set 1 1)) (chi (zeroLanes.set 2 1)) := by
  intro hlinear
  have horigin := congrArg (laneAt · 0 0) hlinear
  simp only [laneAt_xorLanes, chi_at] at horigin
  exact absurd horigin (by decide)

/-- Settles O38 (R85, R90). -/
theorem onlyChiIsNotLinear : Obligations.OnlyChiIsNotLinear :=
  ⟨theta_xorLanes, rho_xorLanes, pi_xorLanes, iota_eq_xorLanes, _, _, chi_xorLanes_ne⟩

end Sys2Proof.Machine
end

section
/-! SUPPORT. The padding: its bytes, its bits, and the padded block in the State's bytes (42_padding_rule.md R111, R113,
R114). -/

namespace Sys2Proof.Machine

/-! ## The shapes of `PAD` -/

/-- One byte of padding takes the domain byte and the final mask together (R111). -/
theorem pad_of_sub_eq_one {n rate : Nat} (h : rate - n = 1) : pad n rate = [0x81] := by
  rw [pad, h]
  rfl

/-- From two bytes on the domain byte and the final mask are the ends of the padding (R111). -/
theorem pad_of_two_le {n rate : Nat} (h : 2 ≤ rate - n) :
    pad n rate = 0x01 :: (List.replicate (rate - n - 2) 0x00 ++ [0x80]) := by
  obtain ⟨z, hz⟩ : ∃ z, rate - n = z + 2 := ⟨rate - n - 2, by omega⟩
  rw [pad, hz, show z + 2 - 1 = z + 1 from rfl, List.replicate_succ, orByte, orByte, List.modify_zero_cons,
    List.modify_succ_cons, List.modify_eq_take_drop]
  simp [domainByte, finalMask]

/-- Settles O41 (R111). -/
theorem paddingIsDomainByteZerosAndFinalBit : Obligations.PaddingIsDomainByteZerosAndFinalBit := by
  intro n rate _
  refine ⟨pad_length n rate, pad_of_sub_eq_one, fun htwo => ?_, fun hthree => pad_of_two_le (by omega)⟩
  simp [pad_of_two_le htwo.ge, htwo]

/-! ## The bits of `PAD` -/

/-- The bits of a byte sequence, least significant first in each byte (R114). -/
def bitsOf (bs : List Byte) : List Bool := bs.flatMap fun b => (List.range 8).map b.getLsbD

theorem bitsOf_append (bs cs : List Byte) : bitsOf (bs ++ cs) = bitsOf bs ++ bitsOf cs := List.flatMap_append

/-- Zero bytes are zero bits. -/
theorem bitsOf_replicate_zero (z : Nat) : bitsOf (List.replicate z 0) = List.replicate (8 * z) false := by
  have hbyte : (List.range 8).map (0 : Byte).getLsbD = List.replicate 8 false := by decide
  rw [bitsOf, List.flatMap_replicate, hbyte, List.flatten_replicate_replicate, Nat.mul_comm]

/-- Settles O43 (R114): between the bits of the domain byte and the final mask there are the seven zeros of either byte
and the zero bytes. -/
theorem paddingBitsAreOneZerosOne : Obligations.PaddingBitsAreOneZerosOne := by
  intro n rate hn
  change bitsOf (pad n rate) = _
  obtain hone | htwo : rate - n = 1 ∨ 2 ≤ rate - n := by omega
  · rw [pad_of_sub_eq_one hone, hone]
    decide
  · have hfirst : bitsOf [0x01] = true :: List.replicate 7 false := by decide
    have hlast : bitsOf [0x80] = List.replicate 7 false ++ [true] := by decide
    have hzeros : 8 * (rate - n) - 2 = 7 + (8 * (rate - n - 2) + 7) := by omega
    rw [pad_of_two_le htwo, ← List.singleton_append, bitsOf_append, bitsOf_append, hfirst, hlast, bitsOf_replicate_zero,
      hzeros, ← List.replicate_append_replicate, ← List.replicate_append_replicate]
    simp only [List.cons_append, List.append_assoc]

/-! ## The padded block in the State's bytes -/

/-- The bytes of an XOR of States are the XORs of their bytes (R12). -/
theorem stBytes_xorLanes_getD (A B : Lanes) {k : Nat} (hk : k < 200) :
    (stBytes (xorLanes A B)).getD k 0 = (stBytes A).getD k 0 ^^^ (stBytes B).getD k 0 := by
  rw [stBytes_getD _ k hk, stBytes_getD _ k hk, stBytes_getD _ k hk, xorLanes_getElem]
  exact BitVec.extractLsb'_xor

/-- A block as lanes has the bytes of the block, and zeros above them (R43, R129). -/
theorem stBytes_blockLanes_getD {sel : Sel} {block : List Byte} (hblock : block.length ≤ sel.rate) {k : Nat}
    (hk : k < 200) : (stBytes (blockLanes sel block)).getD k 0 = block.getD k 0 := by
  obtain ⟨-, -, hrate, -⟩ := rate_bounds sel
  rw [stBytes_getD _ k hk, blockLanes, lanesOf_getElem]
  by_cases hlane : k / 8 < sel.rlanes
  · have hpos : k % 8 < 8 := Nat.mod_lt _ (by decide)
    have hindex : 8 * (k / 8) + k % 8 = k := Nat.div_add_mod k 8
    rw [if_pos hlane, laneByte, le64, packLE_byte 64 _ _ (by omega)]
    simp [hpos, hindex]
  · rw [if_neg hlane, List.getD_eq_default _ _ (by omega)]
    exact BitVec.extractLsb'_zero

/-- A byte behind zero bytes is alone among zeros. -/
theorem replicate_zero_append_getD (z : Nat) (b : Byte) (j : Nat) :
    (List.replicate z 0 ++ [b]).getD j 0 = if j = z then b else 0 := by
  induction z generalizing j with
  | zero => cases j <;> simp
  | succ z ih =>
    rw [List.replicate_succ, List.cons_append]
    cases j with
    | zero => simp
    | succ j => rw [List.getD_cons_succ, ih]; simp only [Nat.add_right_cancel_iff]

/-- Byte `j` of the padding, as the XOR of what the domain byte and the final mask put there (R111). -/
theorem pad_getD {n rate : Nat} (hn : n < rate) (j : Nat) :
    (pad n rate).getD j 0 = (if j = 0 then 0x01 else 0x00) ^^^ (if j = rate - n - 1 then 0x80 else 0x00) := by
  obtain hone | htwo : rate - n = 1 ∨ 2 ≤ rate - n := by omega
  · rw [pad_of_sub_eq_one hone, hone]
    cases j <;> simp
  · rw [pad_of_two_le htwo]
    cases j with
    | zero =>
      have hends : 0 ≠ rate - n - 1 := by omega
      simp [hends]
    | succ j =>
      have hlast : j + 1 = rate - n - 1 ↔ j = rate - n - 2 := by omega
      rw [List.getD_cons_succ, if_neg j.succ_ne_zero, replicate_zero_append_getD]
      simp [hlast]

/-- Byte `k` of the padded block (R111, R113). -/
theorem append_pad_getD {buf : List Byte} {rate : Nat} (hbuf : buf.length < rate) (k : Nat) :
    (buf ++ pad buf.length rate).getD k 0 =
      buf.getD k 0 ^^^ (if k = buf.length then 0x01 else 0x00) ^^^ (if k = rate - 1 then 0x80 else 0x00) := by
  by_cases hk : k < buf.length
  · have hfirst : k ≠ buf.length := by omega
    have hlast : k ≠ rate - 1 := by omega
    rw [List.getD_append _ _ _ _ hk, if_neg hfirst, if_neg hlast]
    simp
  · have hfirst : k - buf.length = 0 ↔ k = buf.length := by omega
    have hlast : k - buf.length = rate - buf.length - 1 ↔ k = rate - 1 := by omega
    rw [List.getD_append_right _ _ _ _ (by omega), pad_getD hbuf, List.getD_eq_default buf _ (by omega)]
    simp [hfirst, hlast]

/-- Settles O42 (R113): byte `k` of the State is XORed with byte `k` of the padded block, which fills the rate portion. -/
theorem paddingInLaneTerms : Obligations.PaddingInLaneTerms := by
  intro sel A buf k hbuf hk
  have hblock : (buf ++ pad buf.length sel.rate).length ≤ sel.rate := by
    rw [List.length_append, pad_length]
    omega
  rw [stBytes_xorLanes_getD _ _ hk, stBytes_blockLanes_getD hblock hk, append_pad_getD hbuf]
  simp only [BitVec.xor_assoc]

end Sys2Proof.Machine
end

section
/-! SUPPORT. What each sponge command does, and what a sequence of them leaves (20_memory.md R50; 30_encoding.md R65, R70;
43_sponge_commands.md R121 to R130). -/

namespace Sys2Proof.Machine

/-! ## Cutting a message into commands -/

/-- Once a command has run, the others run from the state it leaves (R50, R127). -/
theorem execAll_cons_of_next {i : Instr} {s t : State} (h : exec i s = .next t) (is : List Instr) :
    execAll (i :: is) s = execAll is t := by
  simp only [execAll, h]

/-- Once some commands have run, the others run from the state they leave (R50, R127). -/
theorem execAll_append_of_next {is : List Instr} {s t : State} (h : execAll is s = .next t) (js : List Instr) :
    execAll (is ++ js) s = execAll js t := by
  induction is generalizing s with
  | nil =>
    cases h
    rfl
  | cons i is ih =>
    obtain ⟨u, hu⟩ := exec_total i s
    rw [execAll_cons_of_next hu] at h
    rw [List.cons_append, execAll_cons_of_next hu, ih h]

/-- `ABSORB` commands leave the lanes, buffer and size that their bytes, absorbed one by one, leave (R123, R130). -/
theorem execAll_absorbCommand {chunks : List (List Byte)} (hshort : ∀ c ∈ chunks, c.length ≤ 3) {s u : State}
    (hsame : s.SameSponge u) :
    ∃ t, execAll (chunks.map absorbCommand) s = .next t ∧ t.SameSponge (chunks.flatten.foldl absorbByte u) := by
  induction chunks generalizing s u with
  | nil => exact ⟨s, rfl, hsame⟩
  | cons c chunks ih =>
    obtain ⟨hc, hchunks⟩ := List.forall_mem_cons.mp hshort
    obtain ⟨hlanes, hbuf, hsel⟩ := hsame.foldl_absorbByte c
    have hnext : (finishAbsorb (c.foldl absorbByte s)).SameSponge (c.foldl absorbByte u) := ⟨hlanes, hbuf, hsel⟩
    obtain ⟨t, ht, hsame'⟩ := ih hchunks hnext
    refine ⟨t, ?_, ?_⟩
    · rw [List.map_cons, execAll_cons_of_next (exec_absorbCommand hc s), ht]
    · rwa [List.flatten_cons, List.foldl_append]

/-- Settles O24 (R130): both cuttings leave what the bytes absorbed one by one leave, and `FINAL` cannot tell the two
states apart. -/
theorem chunkingDoesNotMatter : Obligations.ChunkingDoesNotMatter := by
  intro s cs ds hcs hds hbytes
  obtain ⟨t, ht, htSame⟩ := execAll_absorbCommand hcs (s := s) (u := s) ⟨rfl, rfl, rfl⟩
  obtain ⟨u, hu, huSame⟩ := execAll_absorbCommand hds (s := s) (u := s) ⟨rfl, rfl, rfl⟩
  rw [hbytes] at htSame
  have hsame : t.SameSponge u :=
    ⟨htSame.lanes.trans huSame.lanes.symm, htSame.buf.trans huSame.buf.symm, htSame.sel.trans huSame.sel.symm⟩
  obtain ⟨t', u', ht', hu', hrsp, -⟩ := hsame.exec .final
  exact ⟨t, u, t', u', ht, hu, hsame.lanes, hsame.buf, hsame.sel,
    (execAll_append_of_next ht _).trans (execAll_cons_of_next ht' []),
    (execAll_append_of_next hu _).trans (execAll_cons_of_next hu' []), hrsp⟩

/-! ## `ABSORB` -/

/-- Bytes that reach the end of the block complete it with as many as it needs, and those left over are buffered when they
are fewer than a block (R123). -/
theorem foldl_absorbByte_of_le (bs : List Byte) (s : State) (hbuf : s.buf.length < s.sel.rate)
    (hfull : s.sel.rate ≤ s.buf.length + bs.length) (hrest : bs.length < s.sel.rate) :
    bs.foldl absorbByte s =
      bufAppend (bs.drop (s.sel.rate - s.buf.length))
        (absorbBlock (bufAppend (bs.take (s.sel.rate - s.buf.length)) s)) := by
  have htake : (bs.take (s.sel.rate - s.buf.length)).length = s.sel.rate - s.buf.length :=
    List.length_take_of_le (by omega)
  have hne : bs.take (s.sel.rate - s.buf.length) ≠ [] := List.ne_nil_of_length_pos (by omega)
  conv_lhs => rw [← List.take_append_drop (s.sel.rate - s.buf.length) bs]
  rw [List.foldl_append, foldl_absorbByte_of_eq _ s hne (by omega), foldl_absorbByte_of_lt]
  rw [absorbBlock_buf, absorbBlock_sel, bufAppend_sel, List.length_nil, List.length_drop]
  omega

/-- Settles O14 (R123, R124): three bytes reach the end of at most one block, a block being longer. -/
theorem absorbBuffersOrAbsorbsTheBlock : Obligations.AbsorbBuffersOrAbsorbsTheBlock := by
  intro s n b0 b1 b2 hbuf p k
  have hexec : exec (.absorb n b0 b1 b2) s = .next (finishAbsorb (p.foldl absorbByte s)) := rfl
  refine ⟨fun hlt => ?_, fun hle => ?_⟩
  · rw [hexec, foldl_absorbByte_of_lt p s (by omega)]
    rfl
  · have hshort : p.length ≤ 3 := payload_length_le n b0 b1 b2
    have hrate := (rate_bounds s.sel).1
    have hblock : p.foldl absorbByte s = bufAppend (p.drop k) (absorbBlock (bufAppend (p.take k) s)) :=
      foldl_absorbByte_of_le p s hbuf (by omega) (by omega)
    rw [hblock] at hexec
    exact ⟨_, hexec, by simp [xorBlock_lanes_eq]⟩

/-! ## `FINAL` -/

/-- `FINAL` leaves the block fresh at the size it had (R125). -/
theorem finishFinal_freshAt (s : State) : (finishFinal (absorbBlock (padBuffer s))).FreshAt s.sel where
  lanes := rfl
  buf := rfl
  sel := by simp
  phase := rfl
  busy := by simp

/-- Settles O15 (R70, R125, R128). -/
theorem finalAnswersTheDigestAndResets : Obligations.FinalAnswersTheDigestAndResets := by
  intro s A
  have hA : (absorbBlock (padBuffer s)).lanes = A := by simp [A, xorBlock_lanes_eq]
  have hsel : (absorbBlock (padBuffer s)).sel = s.sel := by simp
  have hlen := responseOf_squeeze_len .ok (absorbBlock (padBuffer s))
  have habove := responseOf_above .ok (squeeze (absorbBlock (padBuffer s)))
  rw [squeeze_length] at habove
  rw [hsel] at hlen habove
  refine ⟨_, _, rfl, rfl, rfl, hlen, fun j hj => ?_, habove, finishFinal_freshAt s, by simp⟩
  have hj64 : j < 64 := Nat.lt_of_lt_of_le hj (dlen_le s.sel)
  rw [responseOf_byte _ _ j hj64, squeeze_getD _ j (by rwa [hsel]), hA]

/-- `FINAL` on a fresh block answers the empty message's digest and leaves the block fresh (R126). -/
theorem State.FreshAt.exec_final {s : State} {sel : Sel} (h : s.FreshAt sel) :
    ∃ t, exec .final s = .next t ∧ t.FreshAt sel ∧ t.rsp = some (responseOf .ok (keccak sel [])) := by
  have hfresh := finishFinal_freshAt s
  have hdigest : squeeze (absorbBlock (padBuffer s)) = keccak sel [] := squeeze_final_foldl_absorbByte h []
  rw [h.sel] at hfresh
  exact ⟨_, rfl, hfresh, by rw [finishFinal_rsp, hdigest]⟩

/-- Settles O22 (R126): the first `FINAL` leaves the second one a fresh block again. -/
theorem finalizeTwiceAnswersTheSameDigest : Obligations.FinalizeTwiceAnswersTheSameDigest := by
  intro s sel h
  obtain ⟨t, ht, hfresh, hrsp⟩ := h.exec_final
  obtain ⟨v, hv, hfresh', hrsp'⟩ := hfresh.exec_final
  exact ⟨t, v, ht, hfresh, hrsp, hv, hfresh', hrsp'.trans hrsp.symm⟩

/-! ## `INIT` and `INIT256` -/

/-- The table of sizes `INIT` accepts, as the pairs of R121. -/
theorem selOfBits_of_mem :
    ∀ p ∈ [(224, Sel.d224), (256, Sel.d256), (384, Sel.d384), (512, Sel.d512)], selOfBits p.1 = some p.2 := by
  decide

/-- `INIT` of a supported size clears the block to that size (R121). -/
theorem exec_init_of_some {d : Nat} {sel : Sel} (h : selOfBits d = some sel) (s : State) :
    exec (.init d) s = .next (respond .ok [] (clearTo sel s)) := by
  simp only [exec, execInit, h]

/-- `INIT` of any other size raises the error and nothing else (R121, R146). -/
theorem exec_init_of_none {d : Nat} (h : selOfBits d = none) (s : State) :
    exec (.init d) s = .next (raiseError .configurationError s) := by
  simp only [exec, execInit, h]

/-- Settles O12 (R121). -/
theorem initSelectsTheSizeOrChangesNothing : Obligations.InitSelectsTheSizeOrChangesNothing :=
  fun s d =>
    ⟨fun sel hmem => exec_init_of_some (selOfBits_of_mem (d, sel) hmem) s,
      fun hnot => exec_init_of_none ((selOfBits_none_iff d).mpr hnot) s⟩

/-- Settles O13 (R122). -/
theorem init256IsInitOf256 : Obligations.Init256IsInitOf256 :=
  fun s => ⟨rfl, (exec_init_of_some (selOfBits_dbits .d256) s).symm⟩

end Sys2Proof.Machine
end

section
/-! SUPPORT. The errors of the block: which words are answered with each status, and what an error leaves
(60_exceptions.md R140 to R146). -/

namespace Sys2Proof.Machine

/-- A command raises ConfigurationError, being `INIT` of an unsupported size, or it answers OK (R141, R143). -/
theorem exec_status_cases {i : Instr} {s t : State} (h : exec i s = .next t) :
    (∃ d, i = .init d ∧ d ∉ [224, 256, 384, 512] ∧ t = raiseError .configurationError s) ∨
    ((∀ d, i = .init d → d ∈ [224, 256, 384, 512]) ∧ ∃ bs, t.rsp = some (responseOf .ok bs)) := by
  rcases exec_cases h with ⟨d, rfl, hd, rfl⟩ | ⟨d, sel, rfl, hd, rfl⟩ | ⟨rfl, rfl⟩ |
    ⟨_, _, _, _, rfl, rfl⟩ | ⟨rfl, rfl⟩
  · exact .inl ⟨d, rfl, (selOfBits_none_iff d).mp hd, rfl⟩
  · refine .inr ⟨?_, _, rfl⟩
    rintro _ ⟨⟩
    cases sel <;> simp [selOfBits_some hd, Sel.dbits]
  · exact .inr ⟨by simp, _, rfl⟩
  · exact .inr ⟨by simp, _, rfl⟩
  · exact .inr ⟨by simp, _, rfl⟩

/-- A word accepted is decoded first: an illegal one raises IllegalCommand, `INIT` of an unsupported size raises
ConfigurationError, and every other command answers OK (R140 to R142, R145). -/
theorem State.Ready.accept_cases {s : State} {w : Word} {rest : List Word} (h : s.Ready) (hc : s.cmdIn = w :: rest) :
    (∃ e, decode w = .error e ∧ step s = .next (raiseError .illegalCommand (takeWord rest s))) ∨
    (∃ d, decode w = .ok (.init d) ∧ d ∉ [224, 256, 384, 512] ∧
      step s = .next (raiseError .configurationError (takeWord rest s))) ∨
    (∃ i t bs, decode w = .ok i ∧ (∀ d, i = .init d → d ∈ [224, 256, 384, 512]) ∧
      step s = .next t ∧ t.rsp = some (responseOf .ok bs)) := by
  cases hd : decode w with
  | error e => exact .inl ⟨e, rfl, h.step_eq_raiseIllegalCommand hc hd⟩
  | ok i =>
    obtain ⟨t, ht⟩ := exec_total i (takeWord rest s)
    have hstep := (h.step_eq_exec hc hd).trans ht
    rcases exec_status_cases ht with ⟨d, rfl, hunsupported, rfl⟩ | ⟨hsupported, bs, hrsp⟩
    · exact .inr (.inl ⟨d, rfl, hunsupported, hstep⟩)
    · exact .inr (.inr ⟨i, t, bs, rfl, hsupported, hstep, hrsp⟩)

/-- What raising an error leaves: the state before with the error's empty response pending (R146). -/
theorem raiseError_of_rsp {st : Status} {s : State} {r : Response} (h : (raiseError st s).rsp = some r) :
    raiseError st s = { s with rsp := some ⟨r.status, 0, 0⟩ } := by
  obtain rfl : responseOf st [] = r := Option.some.inj h
  rfl

/-- Settles O17 (R146): of the three ways to answer a word, the two that raise an error write the response alone. -/
theorem errorsChangeNothing : Obligations.ErrorsChangeNothing := by
  intro s t w rest r hready hc ht hr herror
  rcases hready.accept_cases hc with ⟨-, -, e⟩ | ⟨-, -, -, e⟩ | ⟨-, t', bs, -, -, e, hok⟩
  all_goals obtain rfl := Host.Outcome.next.inj (ht.symm.trans e)
  · exact raiseError_of_rsp hr
  · exact raiseError_of_rsp hr
  · obtain rfl : responseOf .ok bs = r := Option.some.inj (hok.symm.trans hr)
    exact absurd rfl herror

/-- Settles O18 (R140 to R142, R145): the three ways to answer a word exclude each other by what it decodes to. -/
theorem statusTellsTheCause : Obligations.StatusTellsTheCause := by
  intro s w rest hready hc
  rcases hready.accept_cases hc with ⟨e, hd, hstep⟩ | ⟨d, hd, hunsupported, hstep⟩ |
    ⟨i, t, bs, hd, hsupported, hstep, hrsp⟩
  · exact ⟨_, _, hstep, rfl, by simp [Status.code, hd]⟩
  · exact ⟨_, _, hstep, rfl, by simpa [Status.code, hd] using hunsupported⟩
  · have hno_unsupported : ¬∃ d, decode w = .ok (.init d) ∧ d ∉ [224, 256, 384, 512] := by
      rintro ⟨d, hinit, hunsupported⟩
      exact hunsupported (hsupported d (Except.ok.inj (hd.symm.trans hinit)))
    exact ⟨t, _, hstep, hrsp, by simp [Status.code, hd],
      iff_of_false (by simp [Status.code]) hno_unsupported, .inl rfl⟩

end Sys2Proof.Machine
end

section
/-! SUPPORT. Reset asserted: it comes before every other event, and what it leaves (70_reset_and_hazards.md R160, R161). -/

namespace Sys2Proof.Machine

/-- Asserted reset comes before everything: a command in progress, a pending response and a word offered (R145, R161). -/
theorem step_of_rst {s : State} (hr : s.rst = true) : step s = .next (hardReset s) := by
  simp [step, State.nextEvent, hr]

/-- The block is `FRESH(1)` after reset, however far a command had got (R160). -/
theorem hardReset_freshAt (s : State) : (hardReset s).FreshAt .d256 where
  lanes := hardReset_lanes s
  buf := hardReset_buf s
  sel := hardReset_sel s
  phase := hardReset_phase s
  busy := hardReset_busy s

/-- Settles O8 (R160, R161): in both machines the step under reset is `hardReset`, which drops the command and the
response and keeps the host's side. -/
theorem assertedResetAbandonsEverything : Obligations.AssertedResetAbandonsEverything := fun s hr =>
  ⟨hardReset s, step_of_rst hr, fineStep_of_rst hr, hardReset_freshAt s,
    hardReset_rnd s, hardReset_work s, hardReset_rsp s,
    hardReset_rspOut s, hardReset_cmdIn s, hardReset_rst s, hardReset_rspReady s⟩

end Sys2Proof.Machine
end
